-- ==== Sys2Proof/Word.lean ====
section
/-! DEFINITION. The data types of the hardware: bytes and 16-bit words, both unsigned (R6, R7, R8). -/

namespace Sys2Proof

/-- `u8` of R8: a register, a memory cell, an opcode or an operand byte. -/
abbrev Byte := BitVec 8

/-- `u16` of R8: an address, `PC`, `SP`. -/
abbrev Word := BitVec 16

end Sys2Proof
end

