-- ==== Sys2Proof/Syntax.lean ====
section
/-! DEFINITION. The instruction set as syntax: the four rows of R83, with the operand fields of R81. -/

namespace Sys2Proof

/-- The four instruction formats, one per addressing mode (R81). -/
inductive Format where
  /-- Immediate: one operand byte, the value. -/
  | imm
  /-- Zero-page: one operand byte, the address. -/
  | zp
  /-- Zero-page,X: one operand byte, the base address. -/
  | zpx
  /-- Absolute: two operand bytes, low byte first. -/
  | abs
deriving DecidableEq, Repr

/-- The instructions of the hardware, complete (R83). -/
inductive Instr where
  /-- LDA immediate, 0xA9 (R131). -/
  | ldaImm (imm8 : Byte)
  /-- LDA zero-page, 0xA5 (R132). -/
  | ldaZp (zp8 : Byte)
  /-- LDA zero-page,X, 0xB5 (R133). -/
  | ldaZpx (base8 : Byte)
  /-- JSR absolute, 0x20 (R150). -/
  | jsrAbs (lo8 hi8 : Byte)
deriving DecidableEq, Repr

/-- The format of an instruction (R83). -/
def Instr.format : Instr → Format
  | .ldaImm _ => .imm
  | .ldaZp _ => .zp
  | .ldaZpx _ => .zpx
  | .jsrAbs _ _ => .abs

/-- The number of operand bytes a format has after its opcode byte (R80, R81). -/
def Format.operandCount : Format → Nat
  | .imm => 1
  | .zp => 1
  | .zpx => 1
  | .abs => 2

end Sys2Proof
end

