-- ==== Sys2Proof/WellFormed.lean ====
section
/-! DEFINITION. Well-formedness. No operand value is illegal (R86), so every `Instr` is well formed; what can be ill formed
is a list of bytes offered as one instruction of a format: it must hold exactly the opcode and that format's operand
bytes (R81, R87). -/

namespace Sys2Proof

/-- R86: "Operand bytes have no illegal values": each form is well formed at every operand (DEDUCED, safe, log 20). -/
def Instr.wellFormed : Instr → Bool
  | .ldaImm _ => true
  | .ldaZp _ => true
  | .ldaZpx _ => true
  | .jsrAbs _ _ => true

/-- The whole length of an instruction of a format: 2 or 3 bytes (R80, R81). -/
def Format.length (f : Format) : Nat :=
  1 + f.operandCount

/-- The bytes are as many as the format takes: neither an operand byte missing nor one too many (R87). -/
def Format.fits (f : Format) (bytes : List Byte) : Bool :=
  bytes.length == f.length

end Sys2Proof
end

