-- ==== Sys2Proof/Decode.lean ====
section
/-! DEFINITION. The decoder, total on any bytes and rejecting by name, and after it the encoder, both written from the opcode
map (R81 to R87, R89, `opcode_table.json`). -/

namespace Sys2Proof

/-- One row of the opcode map: an opcode byte `b` is the row's when `b AND mask = pattern` (R89). -/
structure OpcodeRow where
  mnemonic : String
  format : Format
  pattern : Byte
  mask : Byte
  /-- What the whole instruction subtracts from `cyc`, the opcode fetch included (R200). -/
  cycles : Nat
deriving DecidableEq, Repr

/-- The opcode map of R83: these rows are all the instructions there are. -/
def opcodeTable : List OpcodeRow :=
  [ { mnemonic := "LDA", format := .imm, pattern := 0xA9#8, mask := 0xFF#8, cycles := 2 },
    { mnemonic := "LDA", format := .zp,  pattern := 0xA5#8, mask := 0xFF#8, cycles := 3 },
    { mnemonic := "LDA", format := .zpx, pattern := 0xB5#8, mask := 0xFF#8, cycles := 4 },
    { mnemonic := "JSR", format := .abs, pattern := 0x20#8, mask := 0xFF#8, cycles := 6 } ]

/-- R89: the row's condition on byte 0. -/
def OpcodeRow.accepts (r : OpcodeRow) (op : Byte) : Bool :=
  op &&& r.mask == r.pattern

/-- Decoding the opcode byte (R84): its row, or none where it is unrecognized (R85). It reads nothing else. -/
def lookupOpcode (op : Byte) : Option OpcodeRow :=
  opcodeTable.find? fun r => r.accepts op

/-- The format an opcode byte selects; none for the 252 unrecognized values (R85). -/
def opcodeFormat (op : Byte) : Option Format :=
  (lookupOpcode op).map fun r => r.format

/-- What decoding answers. -/
inductive DecodeResult where
  /-- An instruction, and the bytes after it. -/
  | ok (i : Instr) (rest : List Byte)
  /-- The opcode byte is none of the four (R85). -/
  | unrecognized (op : Byte)
  /-- The bytes run out before the format's operands do. -/
  | truncated (f : Format) (present : Nat)
  /-- There is no byte at all. -/
  | noBytes
deriving DecidableEq, Repr

/-- The operand bytes of a format, in the order they stand in memory (R81, R82: "low byte first"). -/
def decodeOperands (f : Format) (bytes : List Byte) : DecodeResult :=
  match f, bytes with
  | .imm, v :: rest => .ok (.ldaImm v) rest
  | .zp, v :: rest => .ok (.ldaZp v) rest
  | .zpx, v :: rest => .ok (.ldaZpx v) rest
  | .abs, lo :: hi :: rest => .ok (.jsrAbs lo hi) rest
  | .imm, [] => .truncated .imm 0
  | .zp, [] => .truncated .zp 0
  | .zpx, [] => .truncated .zpx 0
  | .abs, [] => .truncated .abs 0
  | .abs, [_] => .truncated .abs 1

/-- The decoder: the instruction that the first bytes are, lowest address first (R80, R87). -/
def decode (bytes : List Byte) : DecodeResult :=
  match bytes with
  | [] => .noBytes
  | op :: rest =>
    match opcodeFormat op with
    | some f => decodeOperands f rest
    | none => .unrecognized op

/-- The opcode byte of an instruction (R83). -/
def Instr.opcode : Instr → Byte
  | .ldaImm _ => 0xA9#8
  | .ldaZp _ => 0xA5#8
  | .ldaZpx _ => 0xB5#8
  | .jsrAbs _ _ => 0x20#8

/-- The operand bytes of an instruction, in memory order (R81). -/
def Instr.operandBytes : Instr → List Byte
  | .ldaImm v => [v]
  | .ldaZp v => [v]
  | .ldaZpx v => [v]
  | .jsrAbs lo hi => [lo, hi]

/-- The encoder: the bytes of an instruction in memory order. -/
def encode (i : Instr) : List Byte :=
  i.opcode :: i.operandBytes

/-- The cycles an instruction takes, opcode fetch included, as the opcode map lists them (R200). The meanings do not read
this: they spend cycles through the primitives (R106). -/
def Instr.cycles (i : Instr) : Nat :=
  match lookupOpcode i.opcode with
  | some r => r.cycles
  | none => 0

/-- Byte `k` of a number whose bit 0 is the least significant bit of byte 0. -/
def byteOfNumber (w k : Nat) : Byte :=
  BitVec.ofNat 8 (w / 2 ^ (8 * k))

/-- The three bytes, lowest address first, of the instruction that `opcode_table.json` would number as the `nbits` bits
`w`: every bit above `nbits` is 0. -/
def tableWordBytes (nbits w : Nat) : List Byte :=
  let v := w % 2 ^ nbits
  [byteOfNumber v 0, byteOfNumber v 1, byteOfNumber v 2]

/-- The instruction the decoder reads from a word numbered as the opcode table numbers it. -/
def decodeTableWord (nbits w : Nat) : Option Instr :=
  match decode (tableWordBytes nbits w) with
  | .ok i _ => some i
  | .unrecognized _ => none
  | .truncated _ _ => none
  | .noBytes => none

end Sys2Proof
end

