-- ==== Sys2Proof/Config.lean ====
section
/-! DEFINITION. The parameters of R6 that the state needs, and the free values of R41. -/

namespace Sys2Proof.Config

/-- `RESET_PC` (R6, R191): the literal, not a word read from memory. -/
def resetPc : Word := 0xFFFC#16

/-- `RESET_SP` (R6, R25): an absolute address. -/
def resetSp : Word := 0x0100#16

/-- `MEM_SIZE` (R6, R50). -/
def memSize : Nat := 65536

/-- (DEDUCED, safe, log 6) What a cell that no entry of the memory list names reads as: 0, by the zero-fill of reset (R192) and of a
newly created memory (R41). -/
def unlistedByte : Byte := 0#8

/-- Free value (DESIGN CHOICE, safe, log 4): what an 8-bit register of a core that was never reset holds, or reads as to the host. R41 gives
none, and no two reads need agree (N8). No body: nothing can be proved of its values. -/
opaque unresetByte : Nat → Byte

/-- Free value (DESIGN CHOICE, safe, log 4): the same for a 16-bit register. -/
opaque unresetWord : Nat → Word

/-- Free value (DESIGN CHOICE, safe, log 4): the same for a flag. -/
opaque unresetFlag : Nat → Bool

end Sys2Proof.Config
end

