-- ==== Sys2Proof/Machine/State.lean ====
section
/-! DEFINITION. The state of the hardware as plain data (R20), the conditions it can report, and its two given states: after
reset (R40) and before the first reset (R41). -/

namespace Sys2Proof.Machine

/-- The seven status flags, independent one-bit cells with no packed form (R33). -/
structure Flags where
  /-- `C`, carry (R28). -/
  c : Bool
  /-- `Z`, zero (R26). -/
  z : Bool
  /-- `I`, interrupt disable (R29): inert. -/
  i : Bool
  /-- `D`, decimal mode (R30): inert. -/
  d : Bool
  /-- `B`, break command (R31): inert. -/
  b : Bool
  /-- `V`, overflow (R32). -/
  v : Bool
  /-- `N`, negative (R27). -/
  n : Bool
deriving DecidableEq, Repr

/-- The lifecycle state of the core (R39). -/
inductive Life where
  /-- From construction to the end of the first reset. -/
  | unreset
  /-- From the first reset on, for ever. -/
  | running
deriving DecidableEq, Repr

/-- The two conditions of R160. -/
inductive Fault where
  /-- Raised by the run loop on an unrecognized opcode `op` fetched from `addr` (R161). It ends the run and not the core,
  so `step` reports it in the state's `run` field, in a next state (DEDUCED, log 1). Safe: R161 describes the whole effect. -/
  | unknownInstruction (op : Byte) (addr : Word)
  /-- Raised by a host access of a memory cell outside 0..65535 (R64, R164), never by the core. It changes nothing.
  Safe: the access does not take place. -/
  | addressOutOfRange (addr : Int)
deriving DecidableEq, Repr

/-- Why an operation does not take place. -/
inductive Refusal where
  /-- An instruction that has no meaning yet; raised by no arm of this model. Safe. -/
  | notModelled (mnemonic : String)
  /-- A run, or a host write of a register, asked of a core that was never reset (R42, R118, R179). Raised by `step`,
  `startRun` and the host's register writes. Safe: nothing changes. -/
  | coreNotReset
  /-- A host operation asked for while a run is in progress (R119, D20). Raised by the host operations. Unsafe against a host
  that breaks the contract (DEDUCED, log 7). -/
  | operationInProgress
deriving DecidableEq, Repr

/-- The status a run returns to the host (R112). -/
inductive RunStatus where
  /-- The loop ended because `cyc <= 0` (R117 a). -/
  | completed
  /-- A condition ended the run (R117 b). -/
  | raised (condition : Fault)
deriving DecidableEq, Repr

/-- Where the run operation stands: `cyc` exists only inside a run, and its last value is returned when the run ends
(R100, R112). -/
inductive RunPhase where
  /-- No run is in progress and none has ended since the last reset. -/
  | idle
  /-- A run is in progress, at an instruction boundary, with this cycle budget. -/
  | inRun (cyc : Int)
  /-- The last run has ended with this result, which is the host's to read (R112; DESIGN CHOICE, safe, log 2). No operation of the core reads
  it. -/
  | ended (status : RunStatus) (cyc : Int)
deriving DecidableEq, Repr

/-- The memory (R50): address and byte, addresses strictly rising, no entry equal to `Config.unlistedByte` (`Memory.wf`). -/
abbrev Memory := List Host.Cell

/-- The whole state (R20, R38), with one field of the model's own, `draws`. -/
structure State where
  /-- `A`, the accumulator (R21). -/
  a : Byte
  /-- `X`, index register X (R22). -/
  x : Byte
  /-- `Y`, index register Y (R23). -/
  y : Byte
  /-- `PC` (R24). -/
  pc : Word
  /-- `SP`, an absolute address (R25; decision D1: DEDUCED, unsafe, log 10). -/
  sp : Word
  /-- The status flags (R26 to R33). -/
  flags : Flags
  /-- `mem` (R37, R50). -/
  mem : Memory
  /-- `life` (R39). -/
  life : Life
  /-- The run operation and its `cyc` (R100, R112). -/
  run : RunPhase
  /-- THE MODEL'S OWN: how many free values host reads of an unreset core have drawn (DESIGN CHOICE, safe, log 5). -/
  draws : Nat
deriving DecidableEq, Repr

/-- Every flag 0 (R40). -/
def Flags.clear : Flags :=
  { c := false, z := false, i := false, d := false, b := false, v := false, n := false }

/-- The state after a reset operation (R40, R190): `Z` is 0 although `A` is 0, and `PC` is a literal. -/
def State.reset : State :=
  { a := 0#8, x := 0#8, y := 0#8, pc := Config.resetPc, sp := Config.resetSp, flags := Flags.clear,
    mem := [], life := .running, run := .idle, draws := 0 }

/-- The core as constructed, with a memory as created (R39, R41): registers and flags have no defined value, so they are
free values (DESIGN CHOICE, safe, log 4); the memory is all zero. -/
def State.powerOn : State :=
  { a := Config.unresetByte 0, x := Config.unresetByte 1, y := Config.unresetByte 2,
    pc := Config.unresetWord 0, sp := Config.unresetWord 1,
    flags :=
      { c := Config.unresetFlag 0, z := Config.unresetFlag 1, i := Config.unresetFlag 2, d := Config.unresetFlag 3,
        b := Config.unresetFlag 4, v := Config.unresetFlag 5, n := Config.unresetFlag 6 },
    mem := [], life := .unreset, run := .idle, draws := 7 }

end Sys2Proof.Machine
end

