-- ==== Sys2Proof/Machine/Flags.lean ====
section
/-! DEFINITION. The one path to the flags (R116): the flag update of the loads. -/

namespace Sys2Proof.Machine

/-- `ZERO8`: 1 when the byte is 0 (R115 e). -/
def zero8 (v : Byte) : Bool :=
  v == 0#8

/-- `SIGN8`: bit 7 of the byte (R115 f). -/
def sign8 (v : Byte) : Bool :=
  v.msb

/-- `LDASetStatus` (R130): `Z` and `N` from the new accumulator; `C`, `I`, `D`, `B`, `V` stay. -/
def Flags.loadStatus (f : Flags) (acc : Byte) : Flags :=
  { f with z := zero8 acc, n := sign8 acc }

end Sys2Proof.Machine
end

