-- ==== Sys2Proof/Machine/Operands.lean ====
section
/-! DEFINITION. The datapath of R115 and the operand forms of R82: all the arithmetic there is. None of it touches a flag. -/

namespace Sys2Proof.Machine

/-- `lo8(w) = w[7:0]` (R7). -/
def lo8 (w : Word) : Byte :=
  w.extractLsb' 0 8

/-- `hi8(w) = w[15:8]` (R7). -/
def hi8 (w : Word) : Byte :=
  w.extractLsb' 8 8

/-- `CAT16`: the word `(hi << 8) | lo` (R7, R115 g). -/
def cat16 (hi lo : Byte) : Word :=
  hi ++ lo

/-- `zext_16` (R8). -/
def zext16 (b : Byte) : Word :=
  b.setWidth 16

/-- `INC16` by 1: `w +16 1`, so 0xFFFF becomes 0x0000 (R115 a; decision D3: DEDUCED, unsafe, log 12). -/
def inc16 (w : Word) : Word :=
  w + 1#16

/-- `DEC16`: `w -16 1`, so 0x0000 becomes 0xFFFF (R115 b). -/
def dec16 (w : Word) : Word :=
  w - 1#16

/-- `ADD8`: `a +8 b`, the carry out discarded (R115 c). -/
def add8 (a b : Byte) : Byte :=
  a + b

/-- `ZP`: the effective address of LDA zero-page (R82). -/
def zeroPageAddress (zp8 : Byte) : Word :=
  zext16 zp8

/-- `ZPX`: the effective address of LDA zero-page,X: the sum wraps in 8 bits and is then extended (R82, R133). -/
def zeroPageXAddress (base8 x : Byte) : Word :=
  zext16 (add8 base8 x)

/-- `ABS`: the target of JSR, used as it stands (R82, R152). -/
def absoluteTarget (lo hi : Byte) : Word :=
  cat16 hi lo

end Sys2Proof.Machine
end

