-- ==== Sys2Proof/Machine/Memory.lean ====
section
/-! DEFINITION. Memory: byte access (R51), word access (R10, R52, R53), and the canonical form of the list. None of these
charges a cycle (R10, R51). -/

namespace Sys2Proof.Machine

/-- The byte a list of cells gives an address; `Config.unlistedByte` where no entry names it. -/
def cellAt (cells : List Host.Cell) (k : Nat) : Byte :=
  match cells with
  | [] => Config.unlistedByte
  | cell :: rest => if cell.1 = k then cell.2 else cellAt rest k

/-- Put an entry at the head of a list, unless it says what an unlisted address reads as. -/
def consCell (k : Nat) (v : Byte) (cells : List Host.Cell) : List Host.Cell :=
  if v = Config.unlistedByte then cells else (k, v) :: cells

/-- Store a byte in a rising list of cells, keeping it canonical. -/
def putCell (cells : List Host.Cell) (k : Nat) (v : Byte) : List Host.Cell :=
  match cells with
  | [] => consCell k v []
  | cell :: rest =>
    if k < cell.1 then consCell k v (cell :: rest)
    else if k = cell.1 then consCell k v rest
    else cell :: putCell rest k v

/-- `MemRead(addr, 1)` (R51): every `u16` names a cell, so it cannot fail. -/
def Memory.readByte (m : Memory) (addr : Word) : Byte :=
  cellAt m addr.toNat

/-- `MemWrite(addr, 1, v)` (R51). -/
def Memory.writeByte (m : Memory) (addr : Word) (v : Byte) : Memory :=
  putCell m addr.toNat v

/-- `MemRead(addr, 2)`: the high byte from `addr +16 1` (R10, R52, R53). -/
def Memory.readWord (m : Memory) (addr : Word) : Word :=
  cat16 (m.readByte (inc16 addr)) (m.readByte addr)

/-- `MemWrite(addr, 2, w)`: the low byte at `addr`, then the high byte at `addr +16 1` (R10, R52, R53). -/
def Memory.writeWord (m : Memory) (addr w : Word) : Memory :=
  (m.writeByte addr (lo8 w)).writeByte (inc16 addr) (hi8 w)

/-- The canonical form: addresses strictly rising and inside the address space, and no entry that says what an unlisted
address reads as. -/
def Memory.wf (m : Memory) : Bool :=
  decide (m.Pairwise fun c d => c.1 < d.1) &&
    m.all fun c => decide (c.1 < Config.memSize) && decide (c.2 ≠ Config.unlistedByte)

end Sys2Proof.Machine
end

