-- ==== Sys2Proof/Machine/Ops.lean ====
section
/-! DEFINITION. The named operations of the core: the four bus primitives and the internal cycle (R101 to R105), the only way
a run touches memory or spends cycles (R106); the write of the accumulator; the fetch and decoding of the instruction at
`PC`; the end of a run and the one condition that ends it early (R117, R161). -/

namespace Sys2Proof.Machine

/-- Cost of FetchByte (R101). -/
def fetchByteCost : Int := 1

/-- Cost of FetchWord (R102). -/
def fetchWordCost : Int := 2

/-- Cost of ReadByte (R103). -/
def readByteCost : Int := 1

/-- Cost of WriteWord (R104). -/
def writeWordCost : Int := 2

/-- Cost of the internal cycle (R105). -/
def tickCost : Int := 1

/-- Subtract from `cyc` (R100): integer arithmetic, no wrap, no test. Outside a run there is no `cyc` to charge, and the core
performs no primitive there (DESIGN CHOICE, safe, log 21). -/
def RunPhase.charge (p : RunPhase) (cost : Int) : RunPhase :=
  match p with
  | .inRun cyc => .inRun (cyc - cost)
  | .idle => .idle
  | .ended status cyc => .ended status cyc

/-- Spend cycles. -/
def State.spend (s : State) (cost : Int) : State :=
  { s with run := s.run.charge cost }

/-- `PC <- w`. -/
def State.setPc (s : State) (w : Word) : State :=
  { s with pc := w }

/-- `FetchByte()` (R101): the byte at `PC`, and the state with `PC` one further and one cycle spent. -/
def State.fetchByte (s : State) : Byte × State :=
  (s.mem.readByte s.pc, (s.setPc (inc16 s.pc)).spend fetchByteCost)

/-- `FetchWord()` (R102): the little-endian word at `PC`, and the state with `PC` two further and two cycles spent. -/
def State.fetchWord (s : State) : Word × State :=
  (s.mem.readWord s.pc, (s.setPc (inc16 (inc16 s.pc))).spend fetchWordCost)

/-- `ReadByte(addr)` (R103): `PC` does not move. -/
def State.readByte (s : State) (addr : Word) : Byte × State :=
  (s.mem.readByte addr, s.spend readByteCost)

/-- `WriteWord(addr, w)` (R104): changes no register; its `addressRegister` parameter has no effect (decision D11: DEDUCED, unsafe, log 11). -/
def State.writeWord (s : State) (addr w : Word) : State :=
  { s with mem := s.mem.writeWord addr w }.spend writeWordCost

/-- `Tick()` (R105): an internal cycle. -/
def State.tick (s : State) : State :=
  s.spend tickCost

/-- `A <- v` and then `LDASetStatus()` (R130, R116): the end of every load. -/
def State.loadA (s : State) (v : Byte) : State :=
  { s with a := v, flags := s.flags.loadStatus v }

/-- The bytes at `PC` and after it, as many as the longest instruction has (R80, R87), addresses modulo 65536 (R24). -/
def State.bytesAtPc (s : State) : List Byte :=
  [s.mem.readByte s.pc, s.mem.readByte (inc16 s.pc), s.mem.readByte (inc16 (inc16 s.pc))]

/-- The instruction that stands at `PC`; none where its opcode is unrecognized (R84, R85). Its operand bytes are those that
its handler's fetches read (DEDUCED, safe, log 9); the decoder's last two answers cannot arise (DESIGN CHOICE, safe,
log 22). -/
def State.instrAtPc (s : State) : Option Instr :=
  match decode s.bytesAtPc with
  | .ok i _ => some i
  | .unrecognized _ => none
  | .truncated _ _ => none
  | .noBytes => none

/-- End the run in progress with a status; the final `cyc` is returned to the host (R112, R117). -/
def State.endRun (s : State) (status : RunStatus) : State :=
  match s.run with
  | .inRun cyc => { s with run := .ended status cyc }
  | .idle => s
  | .ended _ _ => s

/-- TAKING THE EXCEPTION (R161, R162, R167; decision D4: DEDUCED, logs 1 and 13), from the state after the opcode fetch: the run ends at once
with the condition, and nothing else changes: no register is saved, no flag moves, nothing is written, no vector is read.
There is no return instruction (R169); the way back is a new run, `startRun`, which resumes at `PC` (R163). -/
def State.raiseUnknownInstruction (s : State) (op : Byte) (addr : Word) : State :=
  s.endRun (.raised (.unknownInstruction op addr))

/-- The unrecognized opcode's step from a boundary: its fetch is kept, then the condition is raised with the address the byte
was fetched from (R108, R161). -/
def State.unknownAtPc (s : State) : State :=
  s.fetchByte.2.raiseUnknownInstruction s.fetchByte.1 s.pc

/-- Store consecutive bytes, addresses modulo 65536. -/
def Memory.writeBytes (m : Memory) (addr : Word) (bytes : List Byte) : Memory :=
  match bytes with
  | [] => m
  | v :: rest => (m.writeByte addr v).writeBytes (inc16 addr) rest

/-- The phase in which the next step fetches: the run in progress where its budget allows an instruction, else a run of
budget 1, which executes exactly one (R110, R175; DESIGN CHOICE, safe, log 8). -/
def RunPhase.fetching (p : RunPhase) : RunPhase :=
  match p with
  | .inRun cyc => if 0 < cyc then .inRun cyc else .inRun 1
  | .idle => .inRun 1
  | .ended _ _ => .inRun 1

end Sys2Proof.Machine
end

