-- ==== Sys2Proof/Machine/Control.lean ====
section
/-! DEFINITION. The one control transfer (42_control_transfer.md). -/

namespace Sys2Proof.Machine

/-- JSR absolute (R150): the operand fetch; the word `PC -16 1` written at `SP`, which does not move (decision D2: DEDUCED, unsafe, log 11);
the jump; the additional cycle. -/
def execJsrAbs (lo hi : Byte) (s : State) : Host.Outcome State Fault Refusal :=
  let fetched := s.fetchWord.2
  .next (((fetched.writeWord fetched.sp (dec16 fetched.pc)).setPc (absoluteTarget lo hi)).tick)

end Sys2Proof.Machine
end

