-- ==== Sys2Proof/Machine/Load.lean ====
section
/-! DEFINITION. The three accumulator loads (41_load.md). A meaning starts where its rule's pseudocode does, after the opcode
fetch (R12, R108), so `PC` is the opcode's address + 1. -/

namespace Sys2Proof.Machine

/-- LDA immediate (R131): the operand fetch, then the load. -/
def execLdaImm (imm8 : Byte) (s : State) : Host.Outcome State Fault Refusal :=
  .next (s.fetchByte.2.loadA imm8)

/-- LDA zero-page (R132): the operand fetch, the data read at `zext_16(zp8)`, then the load. -/
def execLdaZp (zp8 : Byte) (s : State) : Host.Outcome State Fault Refusal :=
  let data := s.fetchByte.2.readByte (zeroPageAddress zp8)
  .next (data.2.loadA data.1)

/-- LDA zero-page,X (R133): the operand fetch, the index computation's cycle, the data read at `zext_16(base8 +8 X)`, then
the load. -/
def execLdaZpx (base8 : Byte) (s : State) : Host.Outcome State Fault Refusal :=
  let data := s.fetchByte.2.tick.readByte (zeroPageXAddress base8 s.x)
  .next (data.2.loadA data.1)

end Sys2Proof.Machine
end

