-- ==== Sys2Proof/Machine/Dispatch.lean ====
section
/-! DEFINITION. The dispatcher (R109): exactly one handler per instruction, no fall-through. -/

namespace Sys2Proof.Machine

def exec (i : Instr) (s : State) : Host.Outcome State Fault Refusal :=
  match i with
  | .ldaImm imm8 => Sys2Proof.Machine.execLdaImm imm8 s
  | .ldaZp zp8 => Sys2Proof.Machine.execLdaZp zp8 s
  | .ldaZpx base8 => Sys2Proof.Machine.execLdaZpx base8 s
  | .jsrAbs lo hi => Sys2Proof.Machine.execJsrAbs lo hi s

end Sys2Proof.Machine
end

