-- ==== Sys2Proof/Machine/Step.lean ====
section
/-! DEFINITION. One step of the core: one turn of the run loop (R107, R108). -/

namespace Sys2Proof.Machine

/-- One iteration of the loop's body: fetch the opcode, dispatch, run one handler (R108, R109), or raise the condition. -/
def runInstruction (s : State) : Host.Outcome State Fault Refusal :=
  match s.instrAtPc with
  | some i => exec i s.fetchByte.2
  | none => .next s.unknownAtPc

/-- A step. Before the first reset the core must not execute (R118; DEDUCED, safe, log 15). Between runs it holds its state (R176; DEDUCED, safe, log 3). In a run
it is at an instruction boundary: the budget is tested there and only there (R110; DEDUCED, log 14), and either one instruction runs or the
run completes (R107, R117). -/
def step (s : State) : Host.Outcome State Fault Refusal :=
  match s.life, s.run with
  | .unreset, _ => .refused .coreNotReset
  | .running, .inRun cyc => if 0 < cyc then runInstruction s else .next (s.endRun .completed)
  | .running, .idle => .next s
  | .running, .ended _ _ => .next s

/-- The state with an instruction, numbered as the opcode table numbers it, stored at `PC`, and a run in progress on a core
that may run, so that the next step fetches and runs it (DESIGN CHOICE, safe, log 8). -/
def State.withFetchWord (s : State) (nbits w : Nat) : State :=
  { s with
    mem := s.mem.writeBytes s.pc (tableWordBytes nbits w)
    life := .running
    run := s.run.fetching }

end Sys2Proof.Machine
end

