-- ==== Sys2Proof/Machine/Micro.lean ====
section
/-! DEFINITION. The fetch-decode-execute FSM of R114, one state per cycle of budget. It is a second, finer description of the
core: no host can see inside an instruction (R120; DEDUCED, safe, log 24), so `step` is the machine and this is what it is the sum of. -/

namespace Sys2Proof.Machine

/-- The states of R114; a state carries the temporaries that the table's later rows use. -/
inductive MicroState where
  | boundary
  | t0
  | immT1
  | zpT1
  | zpT2 (ea : Word)
  | zpxT1
  | zpxT2 (base : Byte)
  | zpxT3 (ea : Word)
  | jsrT1
  | jsrT2 (lo : Byte)
  | jsrT3 (lo hi : Byte)
  | jsrT4 (lo hi : Byte) (ret : Word)
  | jsrT5 (lo hi : Byte)
deriving DecidableEq, Repr

/-- A core in the middle of an instruction. -/
structure MicroMachine where
  core : State
  micro : MicroState
deriving DecidableEq, Repr

/-- The first state after the opcode fetch (R114, `T0`). -/
def firstMicroState (f : Format) : MicroState :=
  match f with
  | .imm => .immT1
  | .zp => .zpT1
  | .zpx => .zpxT1
  | .abs => .jsrT1

/-- `MemWrite(addr, 1, v)` in one cycle: half of a WriteWord (R114, `T3` and `T4` of JSR). -/
def State.writeByteCycle (s : State) (addr : Word) (v : Byte) : State :=
  { s with mem := s.mem.writeByte addr v }.tick

/-- `BOUNDARY` (R114): it costs no cycle; outside a run it waits. -/
def microBoundary (s : State) : MicroMachine :=
  match s.run with
  | .inRun cyc => if 0 < cyc then ⟨s, .t0⟩ else ⟨s.endRun .completed, .boundary⟩
  | .idle => ⟨s, .boundary⟩
  | .ended _ _ => ⟨s, .boundary⟩

/-- `T0` (R114): the opcode fetch, and the fault row. -/
def microT0 (s : State) : MicroMachine :=
  match opcodeFormat s.fetchByte.1 with
  | some f => ⟨s.fetchByte.2, firstMicroState f⟩
  | none => ⟨s.unknownAtPc, .boundary⟩

/-- One row of R114. -/
def microStep (m : MicroMachine) : MicroMachine :=
  let s := m.core
  match m.micro with
  | .boundary => microBoundary s
  | .t0 => microT0 s
  | .immT1 => ⟨s.fetchByte.2.loadA s.fetchByte.1, .boundary⟩
  | .zpT1 => ⟨s.fetchByte.2, .zpT2 (zext16 s.fetchByte.1)⟩
  | .zpT2 ea => ⟨(s.readByte ea).2.loadA (s.readByte ea).1, .boundary⟩
  | .zpxT1 => ⟨s.fetchByte.2, .zpxT2 s.fetchByte.1⟩
  | .zpxT2 base => ⟨s.tick, .zpxT3 (zext16 (add8 base s.x))⟩
  | .zpxT3 ea => ⟨(s.readByte ea).2.loadA (s.readByte ea).1, .boundary⟩
  | .jsrT1 => ⟨s.fetchByte.2, .jsrT2 s.fetchByte.1⟩
  | .jsrT2 lo => ⟨s.fetchByte.2, .jsrT3 lo s.fetchByte.1⟩
  | .jsrT3 lo hi => ⟨s.writeByteCycle s.sp (lo8 (dec16 s.pc)), .jsrT4 lo hi (dec16 s.pc)⟩
  | .jsrT4 lo hi ret => ⟨s.writeByteCycle (inc16 s.sp) (hi8 ret), .jsrT5 lo hi⟩
  | .jsrT5 lo hi => ⟨(s.setPc (cat16 hi lo)).tick, .boundary⟩

/-- `k` rows of R114, one after another. -/
def microSteps (k : Nat) (m : MicroMachine) : MicroMachine :=
  match k with
  | 0 => m
  | k + 1 => microSteps k (microStep m)

end Sys2Proof.Machine
end

