-- ==== Sys2Proof/Machine/HostOps.lean ====
section
/-! DEFINITION. The host's operations (R119): reset, memory access, register access, the start of a run. Each is atomic and
takes place between operations only; during a run it is refused (D20: DEDUCED, unsafe, log 7). Creating a core and its memory is
`State.powerOn`. -/

namespace Sys2Proof.Machine

/-- Do a host operation where no run is in progress (R119, D20). -/
def State.whenBetweenRuns (s : State) {α : Type} (op : Host.Outcome α Fault Refusal) : Host.Outcome α Fault Refusal :=
  match s.run with
  | .inRun _ => .refused .operationInProgress
  | .idle => op
  | .ended _ _ => op

/-- The reset operation (R190 to R194): in either lifecycle state, always successful, costing no cycle, reading nothing (DEDUCED, safe, log 19). It
cannot occur during a run (R193). -/
def hostReset (s : State) : Host.Outcome State Fault Refusal :=
  s.whenBetweenRuns (.next State.reset)

/-- A host access names its cell by an integer (R64): inside 0..65535 it names that cell (DEDUCED, safe, log 17). -/
def hostCell (addr : Int) : Option Word :=
  if 0 ≤ addr ∧ addr < Config.memSize then some (BitVec.ofNat 16 addr.toNat) else none

/-- The host reads a memory cell (R42, R64), in either lifecycle state. -/
def hostReadMemory (addr : Int) (s : State) : Host.Outcome (Byte × State) Fault Refusal :=
  s.whenBetweenRuns <|
    match hostCell addr with
    | some cell => .next (s.mem.readByte cell, s)
    | none => .fault (.addressOutOfRange addr)

/-- The host writes a memory cell (R64), in either lifecycle state (R41): no cycle, no register. -/
def hostWriteMemory (addr : Int) (v : Byte) (s : State) : Host.Outcome State Fault Refusal :=
  s.whenBetweenRuns <|
    match hostCell addr with
    | some cell => .next { s with mem := s.mem.writeByte cell v }
    | none => .fault (.addressOutOfRange addr)

/-- The 8-bit registers, by name (R9). -/
inductive ByteReg where
  | a
  | x
  | y
deriving DecidableEq, Repr

/-- The 16-bit registers, by name (R9). -/
inductive WordReg where
  | pc
  | sp
deriving DecidableEq, Repr

/-- The flags, by name (R9). -/
inductive FlagName where
  | c
  | z
  | i
  | d
  | b
  | v
  | n
deriving DecidableEq, Repr

def State.byteReg (s : State) (r : ByteReg) : Byte :=
  match r with
  | .a => s.a
  | .x => s.x
  | .y => s.y

/-- The write changes that register and nothing else: a write of `A` updates no flag (R42). -/
def State.setByteReg (s : State) (r : ByteReg) (v : Byte) : State :=
  match r with
  | .a => { s with a := v }
  | .x => { s with x := v }
  | .y => { s with y := v }

def State.wordReg (s : State) (r : WordReg) : Word :=
  match r with
  | .pc => s.pc
  | .sp => s.sp

def State.setWordReg (s : State) (r : WordReg) (w : Word) : State :=
  match r with
  | .pc => { s with pc := w }
  | .sp => { s with sp := w }

def Flags.get (f : Flags) (name : FlagName) : Bool :=
  match name with
  | .c => f.c
  | .z => f.z
  | .i => f.i
  | .d => f.d
  | .b => f.b
  | .v => f.v
  | .n => f.n

def Flags.set (f : Flags) (name : FlagName) (bit : Bool) : Flags :=
  match name with
  | .c => { f with c := bit }
  | .z => { f with z := bit }
  | .i => { f with i := bit }
  | .d => { f with d := bit }
  | .b => { f with b := bit }
  | .v => { f with v := bit }
  | .n => { f with n := bit }

/-- What the host reads of a register: its value on a running core; before the first reset an unspecified value, a fresh
free value at each read (R41, N8; DESIGN CHOICE, safe, log 4). -/
def State.hostView (s : State) {α : Type} (value : α) (unspecified : Nat → α) : α × State :=
  match s.life with
  | .running => (value, s)
  | .unreset => (unspecified s.draws, { s with draws := s.draws + 1 })

/-- The host may write registers while `life = running` (R42; DEDUCED, safe, log 16). -/
def State.whenRunning (s : State) (op : Host.Outcome State Fault Refusal) : Host.Outcome State Fault Refusal :=
  match s.life with
  | .running => op
  | .unreset => .refused .coreNotReset

/-- The host reads an 8-bit register (R42). -/
def hostReadByteReg (r : ByteReg) (s : State) : Host.Outcome (Byte × State) Fault Refusal :=
  s.whenBetweenRuns (.next (s.hostView (s.byteReg r) Config.unresetByte))

/-- The host writes an 8-bit register (R42). -/
def hostWriteByteReg (r : ByteReg) (v : Byte) (s : State) : Host.Outcome State Fault Refusal :=
  s.whenBetweenRuns (s.whenRunning (.next (s.setByteReg r v)))

/-- The host reads `PC` or `SP` (R42). -/
def hostReadWordReg (r : WordReg) (s : State) : Host.Outcome (Word × State) Fault Refusal :=
  s.whenBetweenRuns (.next (s.hostView (s.wordReg r) Config.unresetWord))

/-- The host writes `PC` or `SP` (R42). -/
def hostWriteWordReg (r : WordReg) (w : Word) (s : State) : Host.Outcome State Fault Refusal :=
  s.whenBetweenRuns (s.whenRunning (.next (s.setWordReg r w)))

/-- The host reads a flag (R42). -/
def hostReadFlag (name : FlagName) (s : State) : Host.Outcome (Bool × State) Fault Refusal :=
  s.whenBetweenRuns (.next (s.hostView (s.flags.get name) Config.unresetFlag))

/-- The host writes a flag (R42). -/
def hostWriteFlag (name : FlagName) (bit : Bool) (s : State) : Host.Outcome State Fault Refusal :=
  s.whenBetweenRuns (s.whenRunning (.next { s with flags := s.flags.set name bit }))

/-- The host hands another core's memory to this core between operations of both (R59, R119): it is then just this core's
`mem` (DEDUCED, unsafe where two cores would share one, log 23). -/
def hostAttachMemory (other s : State) : Host.Outcome State Fault Refusal :=
  s.whenBetweenRuns (other.whenBetweenRuns (.next { s with mem := other.mem }))

/-- The start of a run with budget `b` (R107): any integer (R100, R111); everything else stays as the last operation left
it (R113), and whatever the last run returned is gone (R178). Refused on a core that was never reset (R118, R179). This is
also the only resumption after UnknownInstruction (R163, R169). -/
def startRun (b : Int) (s : State) : Host.Outcome State Fault Refusal :=
  s.whenBetweenRuns (s.whenRunning (.next { s with run := .inRun b }))

end Sys2Proof.Machine
end

