-- ==== Sys2Proof/Machine/Run.lean ====
section
/-! DEFINITION. The run operation as the host sees it (R107, R112): started, stepped to its end, its result read from the
state it leaves. -/

namespace Sys2Proof.Machine

/-- `k` steps of the core, stopping where a step answers no next state. -/
def stepMany (k : Nat) (s : State) : Host.Outcome State Fault Refusal :=
  match k with
  | 0 => .next s
  | k + 1 =>
    match step s with
    | .next t => stepMany k t
    | .fault r => .fault r
    | .refused r => .refused r

/-- `Run(b)` (R107), whole. A run of budget `b` executes at most `b` instructions (R117), so `b` steps and one more at the
last boundary end it; a step after the end changes nothing (R176). The result is the end state's `run` field. -/
def runOperation (b : Int) (s : State) : Host.Outcome State Fault Refusal :=
  match startRun b s with
  | .next started => stepMany (b.toNat + 1) started
  | .fault r => .fault r
  | .refused r => .refused r

end Sys2Proof.Machine
end

