-- ==== Sys2Proof/Safety.lean ====
section
/-! DEFINITION. What counts as a good state and a clean run, in the terms statements use. -/

namespace Sys2Proof.Machine

/-- What a run may report (R112, R117, R164): completion only at `cyc <= 0`; UnknownInstruction only for an unrecognized
opcode and with a `cyc` the opcode fetch left at 0 or more (R161, R166); AddressOutOfRange never. -/
def RunPhase.sound (p : RunPhase) : Bool :=
  match p with
  | .idle => true
  | .inRun _ => true
  | .ended .completed cyc => decide (cyc ≤ 0)
  | .ended (.raised (.unknownInstruction op _)) cyc => decide (0 ≤ cyc) && (opcodeFormat op).isNone
  | .ended (.raised (.addressOutOfRange _)) _ => false

/-- The invariant of the machine: memory is canonical; a core that was never reset has no run (R118); what the last run
reported is what a run can report. -/
abbrev State.Inv (s : State) : Prop :=
  s.mem.wf = true ∧ (s.life = .unreset → s.run = .idle) ∧ s.run.sound = true

/-- The core is in a run, at an instruction boundary, with a budget that lets the next instruction start (R107). -/
abbrev State.AtBoundary (s : State) (cyc : Int) : Prop :=
  s.life = .running ∧ s.run = .inRun cyc ∧ 0 < cyc

/-- No run is in progress: the host may act (R119). -/
abbrev State.BetweenRuns (s : State) : Prop :=
  ∀ cyc, s.run ≠ .inRun cyc

/-- A run that spends its budget without meeting an unrecognized opcode (R117 a). -/
def CleanRun (b : Int) (s t : State) : Prop :=
  runOperation b s = .next t ∧ ∃ cyc, t.run = .ended .completed cyc

end Sys2Proof.Machine
end

