-- ==== Sys2Proof/Certificates/Slice0/Obligations.lean ====
section
/-! DEFINITION. The statements for the provers. Addresses are written with `+` on 16-bit words, which wraps modulo 65536
(decision D3, log 12). A handler's state is the one its rule's pseudocode starts in: `PC` is the opcode's address + 1 and the
opcode's cycle is spent (R12, R108). -/

open Sys2Proof Sys2Proof.Machine

/- Encoding. -/

/-- Words written out from the opcode map and from 95_test_vectors.md 2.9 decode to the instructions they stand for. -/
def Obligations.SpecWordsDecode : Prop :=
  decode [0xA9#8, 0x84#8] = .ok (.ldaImm 0x84#8) [] ∧
  decode [0xA5#8, 0x42#8] = .ok (.ldaZp 0x42#8) [] ∧
  decode [0xB5#8, 0x42#8] = .ok (.ldaZpx 0x42#8) [] ∧
  decode [0x20#8, 0x34#8, 0x12#8] = .ok (.jsrAbs 0x34#8 0x12#8) [] ∧
  decode [0xEA#8, 0x00#8, 0x00#8] = .unrecognized 0xEA#8

/-- R84: decoding compares the whole opcode byte with four values, and every other byte is unrecognized; each operand field
is the whole byte that R81 names. -/
def Obligations.DecodingComparesTheWholeOpcodeByte : Prop :=
  ∀ op b1 b2 : Byte,
    decode [op, b1, b2] =
      if op = 0xA9#8 then .ok (.ldaImm b1) [b2]
      else if op = 0xA5#8 then .ok (.ldaZp b1) [b2]
      else if op = 0xB5#8 then .ok (.ldaZpx b1) [b2]
      else if op = 0x20#8 then .ok (.jsrAbs b1 b2) []
      else .unrecognized op

/-- Decode and encode agree in both directions: the decoder accepts exactly the encodings, reads every operand bit, and
leaves exactly the bytes that follow. -/
def Obligations.DecodeInvertsEncode : Prop :=
  ∀ (bytes rest : List Byte) (i : Instr), decode bytes = .ok i rest ↔ bytes = encode i ++ rest

/-- R87 (resting on R83): how many bytes an instruction takes is a function of its opcode byte alone, 2 for a load and 3
for JSR. -/
def Obligations.LengthIsAFunctionOfTheOpcode : Prop :=
  ∀ (op : Byte) (after rest : List Byte) (i : Instr), decode (op :: after) = .ok i rest →
    1 + after.length = rest.length + (if op = 0x20#8 then 3 else 2)

/- The run loop. -/

/-- R108: one iteration. The opcode fetch advances `PC` by 1 and costs 1 cycle whether or not the opcode is recognized; a
recognized one's handler, and it alone, then runs in that state. That at an unrecognized one the run has then ended is
decision D4 (R161), in a next state (DEDUCED, logs 1 and 13). -/
def Obligations.StepRunsTheDecodedInstruction : Prop :=
  ∀ (s : State) (cyc : Int), s.AtBoundary cyc →
    (∀ i rest, decode [s.mem.readByte s.pc, s.mem.readByte (s.pc + 1), s.mem.readByte (s.pc + 2)] = .ok i rest →
      step s = exec i { s with pc := s.pc + 1, run := .inRun (cyc - 1) }) ∧
    (∀ op, decode [s.mem.readByte s.pc, s.mem.readByte (s.pc + 1), s.mem.readByte (s.pc + 2)] = .unrecognized op →
      ∃ t status, step s = .next t ∧ t.pc = s.pc + 1 ∧ t.run = .ended status (cyc - 1))

/-- UnknownInstruction, by decision D4 (log 13) and reported as log 1 says: the run ends with the opcode and the address it
was fetched from; the fetch is kept; nothing else in the state changes. -/
def Obligations.UnknownInstructionEndsTheRun : Prop :=
  ∀ (s : State) (cyc : Int), s.AtBoundary cyc →
    s.mem.readByte s.pc ≠ 0xA9#8 → s.mem.readByte s.pc ≠ 0xA5#8 →
    s.mem.readByte s.pc ≠ 0xB5#8 → s.mem.readByte s.pc ≠ 0x20#8 →
    step s = .next { s with
      pc := s.pc + 1
      run := .ended (.raised (.unknownInstruction (s.mem.readByte s.pc) s.pc)) (cyc - 1) }

/-- After UnknownInstruction (decision D4, log 13) the core is still running, and a new run of any budget resumes at the byte
after the offending one with everything else as it was. -/
def Obligations.RunResumesAfterUnknownInstruction : Prop :=
  ∀ (s t : State) (cyc b : Int), s.AtBoundary cyc → opcodeFormat (s.mem.readByte s.pc) = none → step s = .next t →
    t.life = .running ∧ startRun b t = .next { s with pc := s.pc + 1, run := .inRun b }

/-- R200: the cost of each primitive, and of each instruction, by its opcode; an unrecognized opcode costs its fetch; a reset
and a host access happen where there is no `cyc` and leave none. -/
def Obligations.CycleCosts : Prop :=
  (∀ (s : State) (cyc : Int) (addr w : Word), s.run = .inRun cyc →
    s.fetchByte.2.run = .inRun (cyc - 1) ∧ s.fetchWord.2.run = .inRun (cyc - 2) ∧
    (s.readByte addr).2.run = .inRun (cyc - 1) ∧ (s.writeWord addr w).run = .inRun (cyc - 2) ∧
    s.tick.run = .inRun (cyc - 1)) ∧
  (∀ (s : State) (cyc : Int), s.AtBoundary cyc → ∃ t, step s = .next t ∧
    (s.mem.readByte s.pc = 0xA9#8 → t.run = .inRun (cyc - 2)) ∧
    (s.mem.readByte s.pc = 0xA5#8 → t.run = .inRun (cyc - 3)) ∧
    (s.mem.readByte s.pc = 0xB5#8 → t.run = .inRun (cyc - 4)) ∧
    (s.mem.readByte s.pc = 0x20#8 → t.run = .inRun (cyc - 6)) ∧
    (opcodeFormat (s.mem.readByte s.pc) = none → ∃ status, t.run = .ended status (cyc - 1))) ∧
  (∀ s t : State, s.BetweenRuns →
    (hostReset s = .next t → t.run = .idle) ∧
    (∀ addr v, hostWriteMemory addr v s = .next t → t.run = s.run) ∧
    (∀ addr v, hostReadMemory addr s = .next (v, t) → t.run = s.run))

/-- The budget is tested at instruction boundaries only (decision D5, log 14): a recognized instruction that has started
completes, and `cyc` ends it no lower than -5. -/
def Obligations.StartedInstructionsComplete : Prop :=
  ∀ (s : State) (cyc : Int), s.AtBoundary cyc → opcodeFormat (s.mem.readByte s.pc) ≠ none →
    ∃ t left, step s = .next t ∧ t.run = .inRun left ∧ -5 ≤ left ∧ cyc - 6 ≤ left ∧ left ≤ cyc - 2

/-- A run with a budget of zero or less (decision D12, log 14) does nothing and returns Completed with that budget. -/
def Obligations.NonPositiveBudgetDoesNothing : Prop :=
  ∀ (s : State) (b : Int), s.life = .running → s.BetweenRuns → b ≤ 0 →
    runOperation b s = .next { s with run := .ended .completed b }

/-- Between runs the core holds its state (R176, marked derived there; log 3), and before the first reset neither a step nor a
run takes place (decision D7, log 15). -/
def Obligations.CoreActsOnlyInARun : Prop :=
  ∀ s : State, s.BetweenRuns →
    (s.life = .running → step s = .next s) ∧
    (s.life = .unreset → step s = .refused .coreNotReset ∧ ∀ b, startRun b s = .refused .coreNotReset)

/-- Every run ends (R117, its termination marked derived there): with any budget, from any state a run may start in, the run
operation answers a state in which the run has ended, Completed with `cyc` between -5 and 0 (or the budget itself where that
was not positive), or UnknownInstruction with a `cyc` from 0 to the budget less 1. The bound -5 rests on decision D5 and the
budget that is not positive on D12 (DEDUCED, log 14); the end by UnknownInstruction on D4 (DEDUCED, logs 1 and 13). -/
def Obligations.EveryRunEnds : Prop :=
  ∀ (s : State) (b : Int), s.life = .running → s.BetweenRuns →
    ∃ t status left, runOperation b s = .next t ∧ t.life = .running ∧ t.run = .ended status left ∧
      ((status = .completed ∧ ((0 < b ∧ -5 ≤ left ∧ left ≤ 0) ∨ (b ≤ 0 ∧ left = b))) ∨
        (∃ op addr, status = .raised (.unknownInstruction op addr) ∧ opcodeFormat op = none ∧ 0 ≤ left ∧ left < b))

/-- Runs compose (R113, marked derived there; it rests on R110's decision D5, log 14): where a first run ends with `cyc` = 0
exactly, a second run from where it stopped ends in the same state, status and final `cyc` as one run of both budgets. -/
def Obligations.RunsComposeAtExactBudget : Prop :=
  ∀ (s t : State) (b₁ b₂ : Int), 0 ≤ b₂ → runOperation b₁ s = .next t → t.run = .ended .completed 0 →
    runOperation (b₁ + b₂) s = runOperation b₂ t

/-- A run unrolls by one instruction (R107, R202, the second marked derived; the overshoot is decision D5, log 14): it goes
on from that instruction's end with what is left of the budget, or, where nothing is left, completes there. -/
def Obligations.RunUnrollsByOneInstruction : Prop :=
  ∀ (s t : State) (b : Int) (i : Instr), s.life = .running → s.BetweenRuns → 0 < b → s.instrAtPc = some i →
    exec i { s with pc := s.pc + 1, run := .inRun (b - 1) } = .next t →
    runOperation b s =
      if (i.cycles : Int) < b then runOperation (b - i.cycles) { t with run := .idle }
      else .next { t with run := .ended .completed (b - i.cycles) }

/- The loads. -/

/-- R131. The handler: the accumulator becomes the operand, `Z` and `N` follow it, nothing else but `PC` and `cyc` changes;
and the whole instruction from its boundary, 2 bytes and 2 cycles. -/
def Obligations.LdaImmediateResult : Prop :=
  (∀ (s : State) (cyc : Int) (v : Byte), s.run = .inRun cyc →
    exec (.ldaImm v) s = .next { s with
      a := v
      flags := { s.flags with z := decide (v = 0#8), n := decide (128 ≤ v.toNat) }
      pc := s.pc + 1
      run := .inRun (cyc - 1) }) ∧
  (∀ (s : State) (cyc : Int) (v : Byte), s.AtBoundary cyc →
    s.mem.readByte s.pc = 0xA9#8 → s.mem.readByte (s.pc + 1) = v →
    step s = .next { s with
      a := v
      flags := { s.flags with z := decide (v = 0#8), n := decide (128 ≤ v.toNat) }
      pc := s.pc + 2
      run := .inRun (cyc - 2) })

/-- R132. The handler and the whole instruction: the accumulator becomes the byte at the zero-page address. -/
def Obligations.LdaZeroPageResult : Prop :=
  (∀ (s : State) (cyc : Int) (zp8 v : Byte), s.run = .inRun cyc →
    s.mem.readByte (BitVec.ofNat 16 zp8.toNat) = v →
    exec (.ldaZp zp8) s = .next { s with
      a := v
      flags := { s.flags with z := decide (v = 0#8), n := decide (128 ≤ v.toNat) }
      pc := s.pc + 1
      run := .inRun (cyc - 2) }) ∧
  (∀ (s : State) (cyc : Int) (zp8 v : Byte), s.AtBoundary cyc →
    s.mem.readByte s.pc = 0xA5#8 → s.mem.readByte (s.pc + 1) = zp8 →
    s.mem.readByte (BitVec.ofNat 16 zp8.toNat) = v →
    step s = .next { s with
      a := v
      flags := { s.flags with z := decide (v = 0#8), n := decide (128 ≤ v.toNat) }
      pc := s.pc + 2
      run := .inRun (cyc - 3) })

/-- R133. The handler and the whole instruction: the accumulator becomes the byte at `(base8 + X) mod 256`, always in the zero
page; the carry of that sum reaches no flag; one internal cycle is spent whatever `X` is. -/
def Obligations.LdaZeroPageXResult : Prop :=
  (∀ (s : State) (cyc : Int) (base8 v : Byte), s.run = .inRun cyc →
    s.mem.readByte (BitVec.ofNat 16 ((base8.toNat + s.x.toNat) % 256)) = v →
    exec (.ldaZpx base8) s = .next { s with
      a := v
      flags := { s.flags with z := decide (v = 0#8), n := decide (128 ≤ v.toNat) }
      pc := s.pc + 1
      run := .inRun (cyc - 3) }) ∧
  (∀ (s : State) (cyc : Int) (base8 v : Byte), s.AtBoundary cyc →
    s.mem.readByte s.pc = 0xB5#8 → s.mem.readByte (s.pc + 1) = base8 →
    s.mem.readByte (BitVec.ofNat 16 ((base8.toNat + s.x.toNat) % 256)) = v →
    step s = .next { s with
      a := v
      flags := { s.flags with z := decide (v = 0#8), n := decide (128 ≤ v.toNat) }
      pc := s.pc + 2
      run := .inRun (cyc - 4) })

/-- R130: the outcome table of the flag update that ends every load, for every value loaded; the other flags stay, and the
update itself costs no cycle. -/
def Obligations.LoadFlagOutcomes : Prop :=
  (∀ (i : Instr) (s : State), i.format ≠ .abs → ∃ t, exec i s = .next t ∧
    (t.a.toNat = 0 → t.flags.z = true ∧ t.flags.n = false) ∧
    (1 ≤ t.a.toNat → t.a.toNat ≤ 0x7F → t.flags.z = false ∧ t.flags.n = false) ∧
    (0x80 ≤ t.a.toNat → t.flags.z = false ∧ t.flags.n = true) ∧
    t.flags.c = s.flags.c ∧ t.flags.i = s.flags.i ∧ t.flags.d = s.flags.d ∧
    t.flags.b = s.flags.b ∧ t.flags.v = s.flags.v) ∧
  (∀ (s : State) (v : Byte), (s.loadA v).run = s.run)

/-- The loads' frame (R136, marked derived there): a load changes `A`, `Z`, `N`, `PC` and `cyc` and nothing else, and every
byte of memory reads as before. -/
def Obligations.LoadFrame : Prop :=
  ∀ (i : Instr) (s : State), i.format ≠ .abs → ∃ t, exec i s = .next t ∧
    t.x = s.x ∧ t.y = s.y ∧ t.sp = s.sp ∧ t.life = s.life ∧ t.draws = s.draws ∧
    t.flags = { s.flags with z := t.flags.z, n := t.flags.n } ∧
    (∀ addr : Word, t.mem.readByte addr = s.mem.readByte addr) ∧
    (∀ cyc, s.run = .inRun cyc → ∃ left, t.run = .inRun left)

/-- A step whose instruction is a load cannot see memory outside the zero page and the instruction's own bytes (R135, marked
derived there): two cores that differ only there stay equal in all but memory, and neither memory changes. -/
def Obligations.LoadsSeeOnlyTheZeroPage : Prop :=
  ∀ (s t : State) (m : Memory) (cyc : Int) (i : Instr), s.AtBoundary cyc → s.instrAtPc = some i → i.format ≠ .abs →
    (∀ addr : Word, addr.toNat < 256 ∨ addr = s.pc ∨ addr = s.pc + 1 → m.readByte addr = s.mem.readByte addr) →
    step s = .next t →
    t.mem = s.mem ∧ step { s with mem := m } = .next { t with mem := m }

/- JSR. -/

/-- JSR (R150; that `SP` stays is decision D2, log 11). The handler: with `PC` at the operands, it writes the address of the
JSR's last byte, low byte at `SP` and high byte at `SP + 1`, and no other byte; `PC` becomes the target; of the rest of the
state only `cyc` changes. -/
def Obligations.JsrResult : Prop :=
  ∀ (s : State) (cyc : Int) (lo hi : Byte), s.mem.wf = true → s.run = .inRun cyc →
    ∃ t, exec (.jsrAbs lo hi) s = .next t ∧
      t.pc.toNat = 256 * hi.toNat + lo.toNat ∧
      (t.mem.readByte s.sp).toNat = (s.pc + 1).toNat % 256 ∧
      (t.mem.readByte (s.sp + 1)).toNat = (s.pc + 1).toNat / 256 ∧
      (∀ addr : Word, addr ≠ s.sp → addr ≠ s.sp + 1 → t.mem.readByte addr = s.mem.readByte addr) ∧
      t = { s with pc := t.pc, mem := t.mem, run := .inRun (cyc - 5) }

/-- A whole JSR from its boundary (R150, decision D2, log 11): 3 bytes and 6 cycles, the operands read before the return word
is written, which is the JSR's own address + 2; the target may be any address. -/
def Obligations.JsrFromItsBoundary : Prop :=
  ∀ (s : State) (cyc : Int), s.AtBoundary cyc → s.mem.wf = true → s.mem.readByte s.pc = 0x20#8 →
    ∃ t, step s = .next t ∧
      t.pc.toNat = 256 * (s.mem.readByte (s.pc + 2)).toNat + (s.mem.readByte (s.pc + 1)).toNat ∧
      (t.mem.readByte s.sp).toNat = (s.pc + 2).toNat % 256 ∧
      (t.mem.readByte (s.sp + 1)).toNat = (s.pc + 2).toNat / 256 ∧
      (∀ addr : Word, addr ≠ s.sp → addr ≠ s.sp + 1 → t.mem.readByte addr = s.mem.readByte addr) ∧
      t = { s with pc := t.pc, mem := t.mem, run := .inRun (cyc - 6) }

/-- Return words do not stack (R198 b, marked derived; decision D2, log 11): of two JSRs in a row the second writes to the
same two cells, so only its return word is left. -/
def Obligations.ReturnWordsDoNotStack : Prop :=
  ∀ (s t u : State) (c₁ c₂ : Int), s.mem.wf = true →
    s.AtBoundary c₁ → s.mem.readByte s.pc = 0x20#8 → step s = .next t →
    t.AtBoundary c₂ → t.mem.readByte t.pc = 0x20#8 → step t = .next u →
    u.sp = s.sp ∧ u.mem.readWord s.sp = t.pc + 2 ∧
    ∀ addr : Word, addr ≠ s.sp → addr ≠ s.sp + 1 → u.mem.readByte addr = s.mem.readByte addr

/-- A store is seen by the next fetch (R62, marked derived there): a JSR to the address in `SP` goes on to execute its own
return word as code. -/
def Obligations.StoredBytesAreFetched : Prop :=
  ∀ (s t : State) (cyc : Int), s.mem.wf = true → s.AtBoundary cyc → s.mem.readByte s.pc = 0x20#8 →
    256 * (s.mem.readByte (s.pc + 2)).toNat + (s.mem.readByte (s.pc + 1)).toNat = s.sp.toNat →
    step s = .next t →
    t.pc = s.sp ∧
    t.bytesAtPc = [BitVec.ofNat 8 (s.pc + 2).toNat, BitVec.ofNat 8 ((s.pc + 2).toNat / 256), s.mem.readByte (s.sp + 2)]

/- The whole machine. -/

/-- R28 to R32: `C`, `I`, `D`, `B` and `V` are inert. A step commutes with setting any of them, so no step reads or writes
them; reset clears them; and the host's write of one makes it what the host says. -/
def Obligations.InertFlagsAreInert : Prop :=
  (∀ (s : State) (name : FlagName) (bit : Bool), name ≠ .z → name ≠ .n →
    step { s with flags := s.flags.set name bit } =
      match step s with
      | .next t => .next { t with flags := t.flags.set name bit }
      | .fault r => .fault r
      | .refused r => .refused r) ∧
  (∀ name : FlagName, State.reset.flags.get name = false) ∧
  (∀ (s : State) (name : FlagName) (bit : Bool), s.life = .running → s.BetweenRuns →
    ∃ t, hostWriteFlag name bit s = .next t ∧ t.flags.get name = bit)

/-- No step writes `X`, `Y`, `SP`, the lifecycle state or the model's own counter, nor any flag but `Z` and `N`, and no step
reads `Y` (R22, R23, R25, R34, R39: in part marked as the spec's inference or decision D2, log 11). -/
def Obligations.StepsKeepWhatProgramsCannotChange : Prop :=
  (∀ s t : State, step s = .next t →
    t.x = s.x ∧ t.y = s.y ∧ t.sp = s.sp ∧ t.life = s.life ∧ t.draws = s.draws ∧
    t.flags = { s.flags with z := t.flags.z, n := t.flags.n }) ∧
  (∀ (s t : State) (v : Byte), step s = .next t → step { s with y := v } = .next { t with y := v })

/-- The one store there is (R61, R135, R154, marked derived there): a step changes no byte but those at `SP` and `SP + 1`,
and those only where the opcode at `PC` is JSR's. -/
def Obligations.OnlyJsrStores : Prop :=
  ∀ s t : State, step s = .next t →
    (∀ addr : Word, addr ≠ s.sp → addr ≠ s.sp + 1 → t.mem.readByte addr = s.mem.readByte addr) ∧
    (s.mem.readByte s.pc ≠ 0x20#8 → ∀ addr : Word, t.mem.readByte addr = s.mem.readByte addr)

/-- The one jump there is (R151, marked derived there): a step at any other opcode moves `PC` by 2 and stays in the run, or
moves it by 1 and has ended the run with UnknownInstruction at the old `PC` (decision D4: DEDUCED, logs 1 and 13), or starts
no instruction and leaves `PC`, memory, `A` and the flags (a spent budget, or between runs: DEDUCED, logs 3 and 14). Which
opcode takes which is not said here: the loads' result statements (2) and UnknownInstructionEndsTheRun (1) say it. -/
def Obligations.OnlyJsrJumps : Prop :=
  ∀ s t : State, step s = .next t → s.mem.readByte s.pc ≠ 0x20#8 →
    t.pc = s.pc + 2 ∧ (∃ left, t.run = .inRun left) ∨
    t.pc = s.pc + 1 ∧ (∃ op left, t.run = .ended (.raised (.unknownInstruction op s.pc)) left) ∨
    t.pc = s.pc ∧ t.mem = s.mem ∧ t.a = s.a ∧ t.flags = s.flags

/-- Every step keeps the invariant: memory stays canonical, a core never reset has no run, and what a run reports is what a
run can report (AddressOutOfRange never, R164). The canonical form is the model's own (log 6), and that the report stands in
the state is log 2. -/
def Obligations.StepKeepsInvariant : Prop :=
  ∀ s t : State, s.Inv → step s = .next t → t.Inv

/-- The invariant (in part the model's own, logs 2 and 6) holds after reset and before the first reset. -/
def Obligations.InvariantHoldsInitially : Prop :=
  State.reset.Inv ∧ State.powerOn.Inv

/-- Every host operation keeps the invariant (in part the model's own, logs 2 and 6), and so does a whole run. -/
def Obligations.HostOperationsKeepInvariant : Prop :=
  ∀ s t : State, s.Inv →
    (hostReset s = .next t → t.Inv) ∧
    (∀ addr v, hostWriteMemory addr v s = .next t → t.Inv) ∧
    (∀ addr v, hostReadMemory addr s = .next (v, t) → t.Inv) ∧
    (∀ r v, hostWriteByteReg r v s = .next t → t.Inv) ∧
    (∀ r v, hostReadByteReg r s = .next (v, t) → t.Inv) ∧
    (∀ r w, hostWriteWordReg r w s = .next t → t.Inv) ∧
    (∀ r w, hostReadWordReg r s = .next (w, t) → t.Inv) ∧
    (∀ f bit, hostWriteFlag f bit s = .next t → t.Inv) ∧
    (∀ f bit, hostReadFlag f s = .next (bit, t) → t.Inv) ∧
    (∀ other : State, other.Inv → hostAttachMemory other s = .next t → t.Inv) ∧
    (∀ b, startRun b s = .next t → t.Inv) ∧
    (∀ b, runOperation b s = .next t → t.Inv)

/-- The FSM of R114 (marked derived there; log 24) adds up to a step: from the boundary, after the row that leaves it and
one row per cycle, it is back at the boundary in the state the step answers; and a boundary with no budget left completes
the run in one row. -/
def Obligations.CycleMachineRefinesStep : Prop :=
  ∀ (s : State) (cyc : Int), s.life = .running → s.run = .inRun cyc →
    ∃ t, step s = .next t ∧
      microSteps (if 0 < cyc then 1 + (match s.instrAtPc with | some i => i.cycles | none => 1) else 1)
        ⟨s, .boundary⟩ = ⟨t, .boundary⟩

/- Memory and the primitives. -/

/-- R52: the byte order, of memory and of the two word accesses there are (FetchWord's and WriteWord's). A word is read as
256 times the byte at the next address plus the byte at its own; a word written is read back byte by byte with its low byte
at the address and its high byte at the next, and as the same word. -/
def Obligations.WordsAreLittleEndian : Prop :=
  (∀ (m : Memory) (addr : Word), (m.readWord addr).toNat =
    256 * (m.readByte (addr + 1)).toNat + (m.readByte addr).toNat) ∧
  (∀ (m : Memory) (addr w : Word), m.wf = true →
    ((m.writeWord addr w).readByte addr).toNat = w.toNat % 256 ∧
    ((m.writeWord addr w).readByte (addr + 1)).toNat = w.toNat / 256 ∧
    (m.writeWord addr w).readWord addr = w) ∧
  (∀ (s : State) (addr w : Word),
    s.fetchWord.1.toNat = 256 * (s.mem.readByte (s.pc + 1)).toNat + (s.mem.readByte s.pc).toNat ∧
    (s.writeWord addr w).mem = s.mem.writeWord addr w)

/-- FetchWord is two FetchBytes, the first giving the low byte (R102, marked derived there), at every `PC`, the top of memory
included (decision D3, log 12). -/
def Obligations.FetchWordIsTwoFetches : Prop :=
  ∀ s : State,
    s.fetchWord.1.toNat = 256 * s.fetchByte.2.fetchByte.1.toNat + s.fetchByte.1.toNat ∧
    s.fetchWord.2 = s.fetchByte.2.fetchByte.2

/-- R105: Tick changes `cyc` only. ReadByte (R103) answers the byte at its address and changes `cyc` only. -/
def Obligations.ReadByteAndTickChangeOnlyCyc : Prop :=
  ∀ (s : State) (cyc : Int) (addr : Word), s.run = .inRun cyc →
    s.readByte addr = (s.mem.readByte addr, { s with run := .inRun (cyc - 1) }) ∧
    s.tick = { s with run := .inRun (cyc - 1) }

/-- The canonical form (the model's own, log 6) makes equal memories equal data: two canonical memories that read alike at
every address are the same list. -/
def Obligations.CanonicalMemoryIsDeterminedByItsBytes : Prop :=
  ∀ m m' : Memory, m.wf = true → m'.wf = true → (∀ addr : Word, m.readByte addr = m'.readByte addr) → m = m'

/- Reset. -/

/-- R40, R190, R192: what a reset leaves, from any state the host may reset, whatever that state held. -/
def Obligations.ResetSetsEveryPieceOfState : Prop :=
  ∀ s : State, s.BetweenRuns → ∃ t, hostReset s = .next t ∧
    t.pc = 0xFFFC#16 ∧ t.sp = 0x0100#16 ∧ t.a = 0#8 ∧ t.x = 0#8 ∧ t.y = 0#8 ∧
    (∀ name : FlagName, t.flags.get name = false) ∧
    (∀ addr : Word, t.mem.readByte addr = 0#8) ∧ t.life = .running ∧ t.run = .idle ∧
    ∀ s' : State, s'.BetweenRuns → hostReset s' = .next t

/-- R193: a reset cannot fail in either lifecycle state, is idempotent, and cannot occur during a run (there it is refused,
log 7). -/
def Obligations.ResetIsIdempotent : Prop :=
  (∀ s : State, s.BetweenRuns → ∃ t, hostReset s = .next t ∧ t = State.reset ∧ t.life = .running ∧ hostReset t = .next t) ∧
  (∀ (s : State) (cyc : Int), s.run = .inRun cyc → ∀ t, hostReset s ≠ .next t)

/-- Nothing loaded (R197 and vector P4, marked derived; decision D4, log 13): after a reset, every run with a positive budget
meets 0x00 at 0xFFFC, the literal address and not a vector, and a second run meets 0x00 at 0xFFFD. -/
def Obligations.RunAfterResetMeetsZeroByte : Prop :=
  ∀ b b' : Int, 0 < b → 0 < b' →
    ∃ t, runOperation b State.reset = .next t ∧
      t = { State.reset with
        pc := 0xFFFD#16, run := .ended (.raised (.unknownInstruction 0x00#8 0xFFFC#16)) (b - 1) } ∧
      runOperation b' t = .next { State.reset with
        pc := 0xFFFE#16, run := .ended (.raised (.unknownInstruction 0x00#8 0xFFFD#16)) (b' - 1) }

/- The host. -/

/-- A host write of a cell (R64, decision D9, log 17): it is read back, every other cell reads as before, and no register
and no `cyc` moves. -/
def Obligations.HostMemoryWriteIsReadBack : Prop :=
  ∀ (s : State) (addr : Int) (v : Byte), s.BetweenRuns → s.mem.wf = true → 0 ≤ addr → addr < 65536 →
    ∃ t, hostWriteMemory addr v s = .next t ∧ hostReadMemory addr t = .next (v, t) ∧
      t = { s with mem := t.mem } ∧
      ∀ other : Int, 0 ≤ other → other < 65536 → other ≠ addr →
        ∃ w, hostReadMemory other s = .next (w, s) ∧ hostReadMemory other t = .next (w, t)

/-- A host access outside 0..65535 (decision D9, log 17) is turned away with AddressOutOfRange and its address. -/
def Obligations.HostAccessOutOfRangeIsRefused : Prop :=
  ∀ (s : State) (addr : Int) (v : Byte), s.BetweenRuns → (addr < 0 ∨ 65536 ≤ addr) →
    hostReadMemory addr s = .fault (.addressOutOfRange addr) ∧
    hostWriteMemory addr v s = .fault (.addressOutOfRange addr)

/-- A host write of a register or flag (decision D8, log 16) is read back and changes that one thing: a write of `A` moves no
flag. -/
def Obligations.HostRegisterWriteChangesOnlyThatRegister : Prop :=
  ∀ s : State, s.life = .running → s.BetweenRuns →
    (∀ (r : ByteReg) (v : Byte), ∃ t, hostWriteByteReg r v s = .next t ∧ hostReadByteReg r t = .next (v, t) ∧
      (∀ r' : ByteReg, r' ≠ r → t.byteReg r' = s.byteReg r') ∧ t = { s with a := t.a, x := t.x, y := t.y }) ∧
    (∀ (r : WordReg) (w : Word), ∃ t, hostWriteWordReg r w s = .next t ∧ hostReadWordReg r t = .next (w, t) ∧
      (∀ r' : WordReg, r' ≠ r → t.wordReg r' = s.wordReg r') ∧ t = { s with pc := t.pc, sp := t.sp }) ∧
    (∀ (f : FlagName) (bit : Bool), ∃ t, hostWriteFlag f bit s = .next t ∧ hostReadFlag f t = .next (bit, t) ∧
      (∀ f' : FlagName, f' ≠ f → t.flags.get f' = s.flags.get f') ∧ t = { s with flags := t.flags })

/-- The host has no move while a run is in progress (decision D20, log 7). -/
def Obligations.HostWaitsForTheRunToEnd : Prop :=
  ∀ (s other : State) (cyc b addr : Int) (v : Byte) (w : Word) (bit : Bool) (r : ByteReg) (q : WordReg) (f : FlagName),
    s.run = .inRun cyc →
    hostReset s = .refused .operationInProgress ∧ startRun b s = .refused .operationInProgress ∧
    hostReadMemory addr s = .refused .operationInProgress ∧ hostWriteMemory addr v s = .refused .operationInProgress ∧
    hostReadByteReg r s = .refused .operationInProgress ∧ hostWriteByteReg r v s = .refused .operationInProgress ∧
    hostReadWordReg q s = .refused .operationInProgress ∧ hostWriteWordReg q w s = .refused .operationInProgress ∧
    hostReadFlag f s = .refused .operationInProgress ∧ hostWriteFlag f bit s = .refused .operationInProgress ∧
    hostAttachMemory other s = .refused .operationInProgress

/-- Before the first reset (decision D7) a host read of a register or flag answers the free value that the model's own counter
names (DESIGN CHOICE, logs 4 and 5) and advances that counter, which is nothing that the spec gives the machine; a host write
of one is refused (decision D8: DEDUCED, log 16); the memory is all zero as created. The free values have no body, so this
holds whatever they are. -/
def Obligations.UnresetRegistersAreUnspecified : Prop :=
  (∀ s : State, s.life = .unreset → s.BetweenRuns →
    (∀ (r : ByteReg) (v : Byte), hostWriteByteReg r v s = .refused .coreNotReset ∧
      hostReadByteReg r s = .next (Config.unresetByte s.draws, { s with draws := s.draws + 1 })) ∧
    (∀ (r : WordReg) (w : Word), hostWriteWordReg r w s = .refused .coreNotReset ∧
      hostReadWordReg r s = .next (Config.unresetWord s.draws, { s with draws := s.draws + 1 })) ∧
    (∀ (f : FlagName) (bit : Bool), hostWriteFlag f bit s = .refused .coreNotReset ∧
      hostReadFlag f s = .next (Config.unresetFlag s.draws, { s with draws := s.draws + 1 }))) ∧
  State.powerOn.life = .unreset ∧ State.powerOn.run = .idle ∧
  ∀ addr : Word, State.powerOn.mem.readByte addr = 0#8
end

