-- ==== Sys2Proof/Laws/Decode.lean ====
section
/-! SUPPORT. What the decoder and the encoder do, once. -/

namespace Sys2Proof

/-- The opcode map, read as a function: the four bytes of R83 and no other. -/
theorem opcodeFormat_eq (op : Byte) :
    opcodeFormat op =
      if op = 0xA9#8 then some .imm else if op = 0xA5#8 then some .zp
      else if op = 0xB5#8 then some .zpx else if op = 0x20#8 then some .abs else none := by
  revert op; decide

theorem lookupOpcode_imm : lookupOpcode 0xA9#8 = some ⟨"LDA", .imm, 0xA9#8, 0xFF#8, 2⟩ := by decide
theorem lookupOpcode_zp : lookupOpcode 0xA5#8 = some ⟨"LDA", .zp, 0xA5#8, 0xFF#8, 3⟩ := by decide
theorem lookupOpcode_zpx : lookupOpcode 0xB5#8 = some ⟨"LDA", .zpx, 0xB5#8, 0xFF#8, 4⟩ := by decide
theorem lookupOpcode_abs : lookupOpcode 0x20#8 = some ⟨"JSR", .abs, 0x20#8, 0xFF#8, 6⟩ := by decide

theorem opcodeFormat_opcode (i : Instr) : opcodeFormat i.opcode = some i.format := by
  cases i <;>
    simp only [Instr.opcode, Instr.format, opcodeFormat, lookupOpcode_imm, lookupOpcode_zp, lookupOpcode_zpx,
      lookupOpcode_abs, Option.map_some]

/-- No two rows of the opcode map accept one byte (R84). -/
theorem opcodeTable_rows_disjoint (op : Byte) :
    opcodeTable.Pairwise fun r q => ¬ (r.accepts op = true ∧ q.accepts op = true) := by
  revert op; decide

theorem decode_unrecognized (op : Byte) (rest : List Byte) (h : opcodeFormat op = none) :
    decode (op :: rest) = .unrecognized op := by
  simp only [decode, h]

theorem decode_recognized (op : Byte) (rest : List Byte) (f : Format) (h : opcodeFormat op = some f) :
    decode (op :: rest) = decodeOperands f rest := by
  simp only [decode, h]

@[simp] theorem cycles_ldaImm (v : Byte) : (Instr.ldaImm v).cycles = 2 := by
  simp only [Instr.cycles, Instr.opcode, lookupOpcode_imm]
@[simp] theorem cycles_ldaZp (v : Byte) : (Instr.ldaZp v).cycles = 3 := by
  simp only [Instr.cycles, Instr.opcode, lookupOpcode_zp]
@[simp] theorem cycles_ldaZpx (v : Byte) : (Instr.ldaZpx v).cycles = 4 := by
  simp only [Instr.cycles, Instr.opcode, lookupOpcode_zpx]
@[simp] theorem cycles_jsrAbs (lo hi : Byte) : (Instr.jsrAbs lo hi).cycles = 6 := by
  simp only [Instr.cycles, Instr.opcode, lookupOpcode_abs]

end Sys2Proof
end

