-- ==== Sys2Proof/Laws/Memory.lean ====
section
/-! SUPPORT. The laws of memory: reads after writes, and that every memory operation keeps the canonical form. -/

namespace Sys2Proof.Machine

/-- Every entry of the list stands above address `k`. -/
def AllAbove (k : Nat) (cells : List Host.Cell) : Prop :=
  ∀ c ∈ cells, k < c.1

/-- The canonical form of a list of cells, address bound apart, in the shape that inductions over the list use. -/
def Rising : List Host.Cell → Prop
  | [] => True
  | c :: rest => AllAbove c.1 rest ∧ c.2 ≠ Config.unlistedByte ∧ Rising rest

theorem cellAt_of_allAbove (k : Nat) (cells : List Host.Cell) (h : AllAbove k cells) :
    cellAt cells k = Config.unlistedByte := by
  induction cells with
  | nil => rfl
  | cons c rest ih =>
    have hc : k < c.1 := h c (by simp)
    rw [cellAt, if_neg (by omega)]
    exact ih fun d hd => h d (by simp [hd])

theorem allAbove_mono {k l : Nat} {cells : List Host.Cell} (h : AllAbove k cells) (hl : l ≤ k) : AllAbove l cells :=
  fun c hc => lt_of_le_of_lt hl (h c hc)

theorem rising_iff_pairwise (cells : List Host.Cell) :
    Rising cells ↔ cells.Pairwise (fun c d => c.1 < d.1) ∧ ∀ c ∈ cells, c.2 ≠ Config.unlistedByte := by
  induction cells with
  | nil => simp [Rising]
  | cons c rest ih =>
    simp only [Rising, AllAbove, ih, List.pairwise_cons, List.forall_mem_cons]
    tauto

theorem wf_iff (m : Memory) : m.wf = true ↔ Rising m ∧ ∀ c ∈ m, c.1 < Config.memSize := by
  simp only [Memory.wf, Bool.and_eq_true, decide_eq_true_eq, List.all_eq_true, rising_iff_pairwise]
  constructor
  · rintro ⟨hp, h⟩; exact ⟨⟨hp, fun c hc => (h c hc).2⟩, fun c hc => (h c hc).1⟩
  · rintro ⟨⟨hp, hv⟩, hk⟩; exact ⟨hp, fun c hc => ⟨hk c hc, hv c hc⟩⟩

theorem mem_consCell {c : Host.Cell} {k : Nat} {v : Byte} {cells : List Host.Cell} (h : c ∈ consCell k v cells) :
    c.1 = k ∨ c ∈ cells := by
  unfold consCell at h
  split at h
  · exact .inr h
  · rcases List.mem_cons.mp h with rfl | h
    · exact .inl rfl
    · exact .inr h

theorem mem_putCell {c : Host.Cell} {k : Nat} {v : Byte} (cells : List Host.Cell) (h : c ∈ putCell cells k v) :
    c.1 = k ∨ c ∈ cells := by
  induction cells with
  | nil => exact mem_consCell h
  | cons d rest ih =>
    unfold putCell at h
    split at h
    · exact mem_consCell h
    · split at h
      · exact (mem_consCell h).imp_right (List.mem_cons_of_mem d)
      · rcases List.mem_cons.mp h with rfl | h
        · exact .inr (by simp)
        · exact (ih h).imp_right (List.mem_cons_of_mem d)

theorem rising_consCell {k : Nat} {v : Byte} {cells : List Host.Cell} (h : Rising cells) (ha : AllAbove k cells) :
    Rising (consCell k v cells) := by
  unfold consCell
  split
  · exact h
  · exact ⟨ha, ‹_›, h⟩

theorem rising_putCell (k : Nat) (v : Byte) (cells : List Host.Cell) (h : Rising cells) : Rising (putCell cells k v) := by
  induction cells with
  | nil => exact rising_consCell trivial (by simp [AllAbove])
  | cons d rest ih =>
    obtain ⟨ha, hv, hr⟩ := h
    unfold putCell
    split
    · rename_i hk
      refine rising_consCell ⟨ha, hv, hr⟩ fun c hc => ?_
      rcases List.mem_cons.mp hc with rfl | hc
      · exact hk
      · exact lt_trans hk (ha c hc)
    · split
      · rename_i hk
        exact rising_consCell hr (hk ▸ ha)
      · refine ⟨fun c hc => ?_, hv, ih hr⟩
        rcases mem_putCell rest hc with h | h
        · omega
        · exact ha c h

theorem cellAt_consCell_same (k : Nat) (v : Byte) (cells : List Host.Cell) (h : AllAbove k cells) :
    cellAt (consCell k v cells) k = v := by
  unfold consCell
  split
  · rename_i hv; rw [cellAt_of_allAbove k cells h, hv]
  · simp [cellAt]

theorem cellAt_consCell_other (k l : Nat) (v : Byte) (cells : List Host.Cell) (h : l ≠ k) :
    cellAt (consCell k v cells) l = cellAt cells l := by
  unfold consCell
  split
  · rfl
  · rw [cellAt, if_neg (by simpa using h.symm)]

theorem cellAt_putCell_same (k : Nat) (v : Byte) (cells : List Host.Cell) (h : Rising cells) :
    cellAt (putCell cells k v) k = v := by
  induction cells with
  | nil => exact cellAt_consCell_same k v [] (by simp [AllAbove])
  | cons d rest ih =>
    obtain ⟨ha, -, hr⟩ := h
    unfold putCell
    split
    · rename_i hk
      refine cellAt_consCell_same k v _ fun c hc => ?_
      rcases List.mem_cons.mp hc with rfl | hc
      · exact hk
      · exact lt_trans hk (ha c hc)
    · split
      · rename_i hk; exact cellAt_consCell_same k v rest (hk ▸ ha)
      · rw [cellAt, if_neg (by omega)]; exact ih hr

theorem cellAt_putCell_other (k l : Nat) (v : Byte) (cells : List Host.Cell) (h : l ≠ k) :
    cellAt (putCell cells k v) l = cellAt cells l := by
  induction cells with
  | nil => exact cellAt_consCell_other k l v [] h
  | cons d rest ih =>
    unfold putCell
    split
    · exact cellAt_consCell_other k l v _ h
    · split
      · rename_i hk
        rw [cellAt_consCell_other k l v rest h, cellAt, if_neg (by omega)]
      · simp only [cellAt, ih]

/-- A write is read back. -/
theorem readByte_writeByte_same (m : Memory) (addr : Word) (v : Byte) (h : m.wf = true) :
    (m.writeByte addr v).readByte addr = v :=
  cellAt_putCell_same _ _ _ ((wf_iff m).mp h).1

/-- A write changes no other cell (R51, R56). -/
theorem readByte_writeByte_other (m : Memory) (addr b : Word) (v : Byte) (h : b ≠ addr) :
    (m.writeByte addr v).readByte b = m.readByte b :=
  cellAt_putCell_other _ _ _ _ fun e => h (BitVec.eq_of_toNat_eq e)

theorem wf_writeByte (m : Memory) (addr : Word) (v : Byte) (h : m.wf = true) : (m.writeByte addr v).wf = true := by
  rw [wf_iff] at h ⊢
  refine ⟨rising_putCell _ _ _ h.1, fun c hc => ?_⟩
  rcases mem_putCell m hc with hk | hk
  · rw [hk]; exact addr.isLt
  · exact h.2 c hk

theorem inc16_ne (w : Word) : inc16 w ≠ w := by
  unfold inc16; bv_omega

theorem wf_writeWord (m : Memory) (addr w : Word) (h : m.wf = true) : (m.writeWord addr w).wf = true :=
  wf_writeByte _ _ _ (wf_writeByte _ _ _ h)

theorem readByte_writeWord_low (m : Memory) (addr w : Word) (h : m.wf = true) :
    (m.writeWord addr w).readByte addr = lo8 w := by
  rw [Memory.writeWord, readByte_writeByte_other _ _ _ _ (inc16_ne addr).symm, readByte_writeByte_same m addr _ h]

theorem readByte_writeWord_high (m : Memory) (addr w : Word) (h : m.wf = true) :
    (m.writeWord addr w).readByte (inc16 addr) = hi8 w :=
  readByte_writeByte_same _ _ _ (wf_writeByte _ _ _ h)

theorem readByte_writeWord_other (m : Memory) (addr w b : Word) (h : b ≠ addr) (h' : b ≠ inc16 addr) :
    (m.writeWord addr w).readByte b = m.readByte b := by
  rw [Memory.writeWord, readByte_writeByte_other _ _ _ _ h', readByte_writeByte_other _ _ _ _ h]

/-- The two halves of a word put it together again (R52). -/
theorem cat16_hi8_lo8 (w : Word) : cat16 (hi8 w) (lo8 w) = w := by
  refine BitVec.eq_of_getLsbD_eq fun i hi => ?_
  simp only [cat16, hi8, lo8, BitVec.getLsbD_append, BitVec.getLsbD_extractLsb']
  by_cases h : i < 8
  · simp [h]
  · have h8 : i - 8 < 8 := by omega
    have : 8 + (i - 8) = i := by omega
    simp [h, h8, this]

theorem readByte_nil (addr : Word) : Memory.readByte [] addr = 0#8 := rfl

theorem wf_nil : Memory.wf [] = true := rfl

end Sys2Proof.Machine
end

