-- ==== Sys2Proof/Laws/State.lean ====
section
/-! SUPPORT. One lemma per field per update of the state, so that no later proof unfolds a record update. -/

namespace Sys2Proof.Machine

@[simp] theorem spend_a (s : State) (cost : Int) : (s.spend cost).a = s.a := rfl
@[simp] theorem spend_x (s : State) (cost : Int) : (s.spend cost).x = s.x := rfl
@[simp] theorem spend_y (s : State) (cost : Int) : (s.spend cost).y = s.y := rfl
@[simp] theorem spend_pc (s : State) (cost : Int) : (s.spend cost).pc = s.pc := rfl
@[simp] theorem spend_sp (s : State) (cost : Int) : (s.spend cost).sp = s.sp := rfl
@[simp] theorem spend_flags (s : State) (cost : Int) : (s.spend cost).flags = s.flags := rfl
@[simp] theorem spend_mem (s : State) (cost : Int) : (s.spend cost).mem = s.mem := rfl
@[simp] theorem spend_life (s : State) (cost : Int) : (s.spend cost).life = s.life := rfl
@[simp] theorem spend_run (s : State) (cost : Int) : (s.spend cost).run = s.run.charge cost := rfl
@[simp] theorem spend_draws (s : State) (cost : Int) : (s.spend cost).draws = s.draws := rfl

@[simp] theorem setPc_a (s : State) (w : Word) : (s.setPc w).a = s.a := rfl
@[simp] theorem setPc_x (s : State) (w : Word) : (s.setPc w).x = s.x := rfl
@[simp] theorem setPc_y (s : State) (w : Word) : (s.setPc w).y = s.y := rfl
@[simp] theorem setPc_pc (s : State) (w : Word) : (s.setPc w).pc = w := rfl
@[simp] theorem setPc_sp (s : State) (w : Word) : (s.setPc w).sp = s.sp := rfl
@[simp] theorem setPc_flags (s : State) (w : Word) : (s.setPc w).flags = s.flags := rfl
@[simp] theorem setPc_mem (s : State) (w : Word) : (s.setPc w).mem = s.mem := rfl
@[simp] theorem setPc_life (s : State) (w : Word) : (s.setPc w).life = s.life := rfl
@[simp] theorem setPc_run (s : State) (w : Word) : (s.setPc w).run = s.run := rfl
@[simp] theorem setPc_draws (s : State) (w : Word) : (s.setPc w).draws = s.draws := rfl

@[simp] theorem fetchByte_a (s : State) : s.fetchByte.2.a = s.a := rfl
@[simp] theorem fetchByte_x (s : State) : s.fetchByte.2.x = s.x := rfl
@[simp] theorem fetchByte_y (s : State) : s.fetchByte.2.y = s.y := rfl
@[simp] theorem fetchByte_pc (s : State) : s.fetchByte.2.pc = inc16 s.pc := rfl
@[simp] theorem fetchByte_sp (s : State) : s.fetchByte.2.sp = s.sp := rfl
@[simp] theorem fetchByte_flags (s : State) : s.fetchByte.2.flags = s.flags := rfl
@[simp] theorem fetchByte_mem (s : State) : s.fetchByte.2.mem = s.mem := rfl
@[simp] theorem fetchByte_life (s : State) : s.fetchByte.2.life = s.life := rfl
@[simp] theorem fetchByte_run (s : State) : s.fetchByte.2.run = s.run.charge fetchByteCost := rfl
@[simp] theorem fetchByte_draws (s : State) : s.fetchByte.2.draws = s.draws := rfl

@[simp] theorem fetchWord_a (s : State) : s.fetchWord.2.a = s.a := rfl
@[simp] theorem fetchWord_x (s : State) : s.fetchWord.2.x = s.x := rfl
@[simp] theorem fetchWord_y (s : State) : s.fetchWord.2.y = s.y := rfl
@[simp] theorem fetchWord_pc (s : State) : s.fetchWord.2.pc = inc16 (inc16 s.pc) := rfl
@[simp] theorem fetchWord_sp (s : State) : s.fetchWord.2.sp = s.sp := rfl
@[simp] theorem fetchWord_flags (s : State) : s.fetchWord.2.flags = s.flags := rfl
@[simp] theorem fetchWord_mem (s : State) : s.fetchWord.2.mem = s.mem := rfl
@[simp] theorem fetchWord_life (s : State) : s.fetchWord.2.life = s.life := rfl
@[simp] theorem fetchWord_run (s : State) : s.fetchWord.2.run = s.run.charge fetchWordCost := rfl
@[simp] theorem fetchWord_draws (s : State) : s.fetchWord.2.draws = s.draws := rfl

@[simp] theorem readByte_a (s : State) (addr : Word) : (s.readByte addr).2.a = s.a := rfl
@[simp] theorem readByte_x (s : State) (addr : Word) : (s.readByte addr).2.x = s.x := rfl
@[simp] theorem readByte_y (s : State) (addr : Word) : (s.readByte addr).2.y = s.y := rfl
@[simp] theorem readByte_pc (s : State) (addr : Word) : (s.readByte addr).2.pc = s.pc := rfl
@[simp] theorem readByte_sp (s : State) (addr : Word) : (s.readByte addr).2.sp = s.sp := rfl
@[simp] theorem readByte_flags (s : State) (addr : Word) : (s.readByte addr).2.flags = s.flags := rfl
@[simp] theorem readByte_mem (s : State) (addr : Word) : (s.readByte addr).2.mem = s.mem := rfl
@[simp] theorem readByte_life (s : State) (addr : Word) : (s.readByte addr).2.life = s.life := rfl
@[simp] theorem readByte_run (s : State) (addr : Word) : (s.readByte addr).2.run = s.run.charge readByteCost := rfl
@[simp] theorem readByte_draws (s : State) (addr : Word) : (s.readByte addr).2.draws = s.draws := rfl

@[simp] theorem writeWord_a (s : State) (addr w : Word) : (s.writeWord addr w).a = s.a := rfl
@[simp] theorem writeWord_x (s : State) (addr w : Word) : (s.writeWord addr w).x = s.x := rfl
@[simp] theorem writeWord_y (s : State) (addr w : Word) : (s.writeWord addr w).y = s.y := rfl
@[simp] theorem writeWord_pc (s : State) (addr w : Word) : (s.writeWord addr w).pc = s.pc := rfl
@[simp] theorem writeWord_sp (s : State) (addr w : Word) : (s.writeWord addr w).sp = s.sp := rfl
@[simp] theorem writeWord_flags (s : State) (addr w : Word) : (s.writeWord addr w).flags = s.flags := rfl
@[simp] theorem writeWord_mem (s : State) (addr w : Word) : (s.writeWord addr w).mem = s.mem.writeWord addr w := rfl
@[simp] theorem writeWord_life (s : State) (addr w : Word) : (s.writeWord addr w).life = s.life := rfl
@[simp] theorem writeWord_run (s : State) (addr w : Word) : (s.writeWord addr w).run = s.run.charge writeWordCost := rfl
@[simp] theorem writeWord_draws (s : State) (addr w : Word) : (s.writeWord addr w).draws = s.draws := rfl

@[simp] theorem tick_a (s : State) : s.tick.a = s.a := rfl
@[simp] theorem tick_x (s : State) : s.tick.x = s.x := rfl
@[simp] theorem tick_y (s : State) : s.tick.y = s.y := rfl
@[simp] theorem tick_pc (s : State) : s.tick.pc = s.pc := rfl
@[simp] theorem tick_sp (s : State) : s.tick.sp = s.sp := rfl
@[simp] theorem tick_flags (s : State) : s.tick.flags = s.flags := rfl
@[simp] theorem tick_mem (s : State) : s.tick.mem = s.mem := rfl
@[simp] theorem tick_life (s : State) : s.tick.life = s.life := rfl
@[simp] theorem tick_run (s : State) : s.tick.run = s.run.charge tickCost := rfl
@[simp] theorem tick_draws (s : State) : s.tick.draws = s.draws := rfl

@[simp] theorem loadA_a (s : State) (v : Byte) : (s.loadA v).a = v := rfl
@[simp] theorem loadA_x (s : State) (v : Byte) : (s.loadA v).x = s.x := rfl
@[simp] theorem loadA_y (s : State) (v : Byte) : (s.loadA v).y = s.y := rfl
@[simp] theorem loadA_pc (s : State) (v : Byte) : (s.loadA v).pc = s.pc := rfl
@[simp] theorem loadA_sp (s : State) (v : Byte) : (s.loadA v).sp = s.sp := rfl
@[simp] theorem loadA_flags (s : State) (v : Byte) : (s.loadA v).flags = s.flags.loadStatus v := rfl
@[simp] theorem loadA_mem (s : State) (v : Byte) : (s.loadA v).mem = s.mem := rfl
@[simp] theorem loadA_life (s : State) (v : Byte) : (s.loadA v).life = s.life := rfl
@[simp] theorem loadA_run (s : State) (v : Byte) : (s.loadA v).run = s.run := rfl
@[simp] theorem loadA_draws (s : State) (v : Byte) : (s.loadA v).draws = s.draws := rfl

@[simp] theorem fetchByte_fst (s : State) : s.fetchByte.1 = s.mem.readByte s.pc := rfl
@[simp] theorem fetchWord_fst (s : State) : s.fetchWord.1 = s.mem.readWord s.pc := rfl
@[simp] theorem readByte_fst (s : State) (addr : Word) : (s.readByte addr).1 = s.mem.readByte addr := rfl

@[simp] theorem charge_inRun (cyc cost : Int) : (RunPhase.inRun cyc).charge cost = .inRun (cyc - cost) := rfl
@[simp] theorem charge_idle (cost : Int) : RunPhase.idle.charge cost = .idle := rfl
@[simp] theorem charge_ended (status : RunStatus) (cyc cost : Int) :
    (RunPhase.ended status cyc).charge cost = .ended status cyc := rfl

@[simp] theorem fetching_idle : RunPhase.idle.fetching = .inRun 1 := rfl
@[simp] theorem fetching_ended (status : RunStatus) (cyc : Int) : (RunPhase.ended status cyc).fetching = .inRun 1 := rfl

@[simp] theorem loadStatus_c (f : Flags) (acc : Byte) : (f.loadStatus acc).c = f.c := rfl
@[simp] theorem loadStatus_i (f : Flags) (acc : Byte) : (f.loadStatus acc).i = f.i := rfl
@[simp] theorem loadStatus_d (f : Flags) (acc : Byte) : (f.loadStatus acc).d = f.d := rfl
@[simp] theorem loadStatus_b (f : Flags) (acc : Byte) : (f.loadStatus acc).b = f.b := rfl
@[simp] theorem loadStatus_v (f : Flags) (acc : Byte) : (f.loadStatus acc).v = f.v := rfl
@[simp] theorem loadStatus_z (f : Flags) (acc : Byte) : (f.loadStatus acc).z = zero8 acc := rfl
@[simp] theorem loadStatus_n (f : Flags) (acc : Byte) : (f.loadStatus acc).n = sign8 acc := rfl

@[simp] theorem endRun_a (s : State) (status : RunStatus) : (s.endRun status).a = s.a := by
  unfold State.endRun; split <;> rfl
@[simp] theorem endRun_x (s : State) (status : RunStatus) : (s.endRun status).x = s.x := by
  unfold State.endRun; split <;> rfl
@[simp] theorem endRun_y (s : State) (status : RunStatus) : (s.endRun status).y = s.y := by
  unfold State.endRun; split <;> rfl
@[simp] theorem endRun_pc (s : State) (status : RunStatus) : (s.endRun status).pc = s.pc := by
  unfold State.endRun; split <;> rfl
@[simp] theorem endRun_sp (s : State) (status : RunStatus) : (s.endRun status).sp = s.sp := by
  unfold State.endRun; split <;> rfl
@[simp] theorem endRun_flags (s : State) (status : RunStatus) : (s.endRun status).flags = s.flags := by
  unfold State.endRun; split <;> rfl
@[simp] theorem endRun_mem (s : State) (status : RunStatus) : (s.endRun status).mem = s.mem := by
  unfold State.endRun; split <;> rfl
@[simp] theorem endRun_life (s : State) (status : RunStatus) : (s.endRun status).life = s.life := by
  unfold State.endRun; split <;> rfl
@[simp] theorem endRun_draws (s : State) (status : RunStatus) : (s.endRun status).draws = s.draws := by
  unfold State.endRun; split <;> rfl

theorem endRun_inRun (s : State) (status : RunStatus) (cyc : Int) (h : s.run = .inRun cyc) :
    s.endRun status = { s with run := .ended status cyc } := by
  simp only [State.endRun, h]

end Sys2Proof.Machine
end

