-- ==== Sys2Proof/Laws/Ops.lean ====
section
/-! SUPPORT. What each shared operation and each meaning can do, once: the lemmas that later proofs cite. -/

namespace Sys2Proof.Machine

theorem zero8_eq (v : Byte) : zero8 v = decide (v = 0#8) := rfl

theorem sign8_eq (v : Byte) : sign8 v = decide (128 ≤ v.toNat) := by
  simp [sign8, BitVec.msb_eq_decide]

theorem zeroPageAddress_toNat (zp8 : Byte) : (zeroPageAddress zp8).toNat = zp8.toNat := by
  simp only [zeroPageAddress, zext16]; bv_omega

theorem zeroPageXAddress_toNat (base8 x : Byte) :
    (zeroPageXAddress base8 x).toNat = (base8.toNat + x.toNat) % 256 := by
  simp only [zeroPageXAddress, zext16, add8]; bv_omega

theorem cat16_toNat (hi lo : Byte) : (cat16 hi lo).toNat = 256 * hi.toNat + lo.toNat := by
  have := lo.isLt
  rw [cat16, BitVec.toNat_append, ← Nat.shiftLeft_add_eq_or_of_lt lo.isLt, Nat.shiftLeft_eq]
  omega

/-- The instruction at `PC`, by cases on what its opcode selects; with three bytes at hand decoding never runs short. -/
theorem instrAtPc_eq (s : State) :
    s.instrAtPc =
      match opcodeFormat (s.mem.readByte s.pc) with
      | some .imm => some (.ldaImm (s.mem.readByte (inc16 s.pc)))
      | some .zp => some (.ldaZp (s.mem.readByte (inc16 s.pc)))
      | some .zpx => some (.ldaZpx (s.mem.readByte (inc16 s.pc)))
      | some .abs => some (.jsrAbs (s.mem.readByte (inc16 s.pc)) (s.mem.readByte (inc16 (inc16 s.pc))))
      | none => none := by
  unfold State.instrAtPc State.bytesAtPc decode
  dsimp only
  cases opcodeFormat (s.mem.readByte s.pc) with
  | none => rfl
  | some f => cases f <;> rfl

theorem instrAtPc_eq_none (s : State) : s.instrAtPc = none ↔ opcodeFormat (s.mem.readByte s.pc) = none := by
  rw [instrAtPc_eq]
  cases opcodeFormat (s.mem.readByte s.pc) with
  | none => simp
  | some f => cases f <;> simp

/-- A meaning's operand is the byte its FetchByte reads, whatever follows it (R131 to R133, log 9). -/
theorem instrAtPc_fetchByte (s : State) (f : Format) (h : opcodeFormat s.fetchByte.1 = some f) (hf : f ≠ .abs) :
    s.instrAtPc = some (match f with
      | .imm => .ldaImm s.fetchByte.2.fetchByte.1
      | .zp => .ldaZp s.fetchByte.2.fetchByte.1
      | .zpx => .ldaZpx s.fetchByte.2.fetchByte.1
      | .abs => .jsrAbs 0#8 0#8) := by
  rw [fetchByte_fst] at h
  rw [instrAtPc_eq, h]
  cases f <;> first | rfl | exact absurd rfl hf

theorem execLdaImm_eq (v : Byte) (s : State) :
    execLdaImm v s = .next { s with a := v, flags := s.flags.loadStatus v, pc := inc16 s.pc, run := s.run.charge 1 } :=
  rfl

theorem charge_charge (p : RunPhase) (c d : Int) : (p.charge c).charge d = p.charge (c + d) := by
  cases p <;> simp [sub_sub]

theorem execLdaZp_eq (zp8 : Byte) (s : State) :
    execLdaZp zp8 s =
      let v := s.mem.readByte (zeroPageAddress zp8)
      .next { s with a := v, flags := s.flags.loadStatus v, pc := inc16 s.pc, run := s.run.charge 2 } := by
  have h : s.run.charge 2 = (s.run.charge 1).charge 1 := (charge_charge _ 1 1).symm
  simp only [h]; rfl

theorem execLdaZpx_eq (base8 : Byte) (s : State) :
    execLdaZpx base8 s =
      let v := s.mem.readByte (zeroPageXAddress base8 s.x)
      .next { s with a := v, flags := s.flags.loadStatus v, pc := inc16 s.pc, run := s.run.charge 3 } := by
  have h : s.run.charge 3 = ((s.run.charge 1).charge 1).charge 1 := by simp [charge_charge]
  simp only [h]; rfl

/-- `PC` after both operand fetches, less 1, is the address of the JSR's last byte (R150). -/
theorem dec16_inc16 (w : Word) : dec16 (inc16 w) = w := by
  unfold dec16 inc16; bv_omega

theorem execJsrAbs_eq (lo hi : Byte) (s : State) :
    execJsrAbs lo hi s =
      .next { s with mem := s.mem.writeWord s.sp (inc16 s.pc), pc := cat16 hi lo, run := s.run.charge 5 } := by
  have h : s.run.charge 5 = ((s.run.charge 2).charge 2).charge 1 := by simp [charge_charge]
  rw [h, ← dec16_inc16 (inc16 s.pc)]; rfl

@[simp] theorem exec_ldaImm (v : Byte) (s : State) : exec (.ldaImm v) s = execLdaImm v s := rfl
@[simp] theorem exec_ldaZp (v : Byte) (s : State) : exec (.ldaZp v) s = execLdaZp v s := rfl
@[simp] theorem exec_ldaZpx (v : Byte) (s : State) : exec (.ldaZpx v) s = execLdaZpx v s := rfl
@[simp] theorem exec_jsrAbs (lo hi : Byte) (s : State) : exec (.jsrAbs lo hi) s = execJsrAbs lo hi s := rfl

/-- What an instruction can do to a state (R34, R136, R154): it always answers a next state, and of all but `A`, `Z`, `N`,
`PC`, memory and `cyc` that state is the old one. -/
theorem exec_next (i : Instr) (s : State) :
    ∃ acc fl w m, exec i s = .next { s with a := acc, flags := fl, pc := w, mem := m, run := s.run.charge (i.cycles - 1) } ∧
      (fl = s.flags ∨ fl = s.flags.loadStatus acc) ∧ (m = s.mem ∨ m = s.mem.writeWord s.sp (inc16 s.pc)) := by
  cases i with
  | ldaImm v => exact ⟨_, _, _, _, by simpa using execLdaImm_eq v s, .inr rfl, .inl rfl⟩
  | ldaZp v => exact ⟨_, _, _, _, by simpa using execLdaZp_eq v s, .inr rfl, .inl rfl⟩
  | ldaZpx v => exact ⟨_, _, _, _, by simpa using execLdaZpx_eq v s, .inr rfl, .inl rfl⟩
  | jsrAbs lo hi => exact ⟨_, _, _, _, by simpa using execJsrAbs_eq lo hi s, .inl rfl, .inr rfl⟩

/-- What raising UnknownInstruction in a run leaves (R161). -/
theorem unknownAtPc_eq (s : State) (cyc : Int) (h : s.run = .inRun cyc) :
    s.unknownAtPc =
      { s with pc := inc16 s.pc, run := .ended (.raised (.unknownInstruction (s.mem.readByte s.pc) s.pc)) (cyc - 1) } := by
  unfold State.unknownAtPc State.raiseUnknownInstruction
  rw [endRun_inRun _ _ (cyc - 1) (by simp [h, fetchByteCost])]
  rfl

end Sys2Proof.Machine
end

