-- ==== Sys2Proof/Laws/PerInstr.lean ====
section
/-! SUPPORT. What holds of every instruction as syntax, one lemma per constructor. -/

namespace Sys2Proof.Laws

/-- The code of an instruction has the shape the opcode map gives it: a well-formed term, whose opcode byte selects its
format and whose bytes are as many as that format takes (R81, R83, R87). -/
def CodeShape.Statement (i : Instr) : Prop :=
  i.wellFormed = true ∧ opcodeFormat i.opcode = some i.format ∧ i.format.fits (encode i) = true

theorem CodeShape.ldaImm (imm8 : Byte) : CodeShape.Statement (.ldaImm imm8) := ⟨rfl, opcodeFormat_opcode _, rfl⟩
theorem CodeShape.ldaZp (zp8 : Byte) : CodeShape.Statement (.ldaZp zp8) := ⟨rfl, opcodeFormat_opcode _, rfl⟩
theorem CodeShape.ldaZpx (base8 : Byte) : CodeShape.Statement (.ldaZpx base8) := ⟨rfl, opcodeFormat_opcode _, rfl⟩
theorem CodeShape.jsrAbs (lo8 hi8 : Byte) : CodeShape.Statement (.jsrAbs lo8 hi8) := ⟨rfl, opcodeFormat_opcode _, rfl⟩

end Sys2Proof.Laws
end

