-- ==== Sys2Proof/Laws/Step.lean ====
section
/-! SUPPORT. What a step and a host operation can do, once; every invariant is derived from these. -/

namespace Sys2Proof.Machine

theorem step_unreset (s : State) (h : s.life = .unreset) : step s = .refused .coreNotReset := by
  simp only [step, h]

theorem step_idle (s : State) (h : s.life = .running) (hr : s.run = .idle) : step s = .next s := by
  simp only [step, h, hr]

theorem step_ended (s : State) (status : RunStatus) (cyc : Int) (h : s.life = .running)
    (hr : s.run = .ended status cyc) : step s = .next s := by
  simp only [step, h, hr]

theorem step_inRun (s : State) (cyc : Int) (h : s.life = .running) (hr : s.run = .inRun cyc) :
    step s = if 0 < cyc then runInstruction s else .next (s.endRun .completed) := by
  simp only [step, h, hr]

/-- Everything a step can do: run the instruction at `PC`, raise the one condition, complete the run, or hold. -/
theorem step_cases {s t : State} (h : step s = .next t) :
    s.life = .running ∧
      ((∃ cyc i, s.run = .inRun cyc ∧ 0 < cyc ∧ s.instrAtPc = some i ∧ exec i s.fetchByte.2 = .next t) ∨
        (∃ cyc, s.run = .inRun cyc ∧ 0 < cyc ∧ s.instrAtPc = none ∧ t = s.unknownAtPc) ∨
        (∃ cyc, s.run = .inRun cyc ∧ cyc ≤ 0 ∧ t = s.endRun .completed) ∨
        ((∀ cyc, s.run ≠ .inRun cyc) ∧ t = s)) := by
  cases hl : s.life with
  | unreset => rw [step_unreset s hl] at h; cases h
  | running =>
    refine ⟨rfl, ?_⟩
    cases hr : s.run with
    | idle => rw [step_idle s hl hr] at h; cases h; exact .inr (.inr (.inr ⟨by simp, rfl⟩))
    | ended status cyc => rw [step_ended s status cyc hl hr] at h; cases h; exact .inr (.inr (.inr ⟨by simp, rfl⟩))
    | inRun cyc =>
      rw [step_inRun s cyc hl hr] at h
      split at h
      · rename_i hc
        unfold runInstruction at h
        split at h
        · rename_i i hi; exact .inl ⟨cyc, i, rfl, hc, hi, h⟩
        · rename_i hi; cases h; exact .inr (.inl ⟨cyc, rfl, hc, hi, rfl⟩)
      · cases h; exact .inr (.inr (.inl ⟨cyc, rfl, by omega, rfl⟩))

/-- A host operation takes place exactly between runs (R119). -/
theorem whenBetweenRuns_next {α : Type} {s : State} {op : Host.Outcome α Fault Refusal} {r : α}
    (h : s.whenBetweenRuns op = .next r) : (∀ cyc, s.run ≠ .inRun cyc) ∧ op = .next r := by
  unfold State.whenBetweenRuns at h
  split at h
  · cases h
  · exact ⟨by simp [*], h⟩
  · exact ⟨by simp [*], h⟩

theorem whenRunning_next {s t : State} {op : Host.Outcome State Fault Refusal} (h : s.whenRunning op = .next t) :
    s.life = .running ∧ op = .next t := by
  unfold State.whenRunning at h
  split at h
  · exact ⟨‹_›, h⟩
  · cases h

/-- Starting a run sets the budget and nothing else (R113). -/
theorem startRun_next {b : Int} {s t : State} (h : startRun b s = .next t) :
    s.life = .running ∧ (∀ cyc, s.run ≠ .inRun cyc) ∧ t = { s with run := .inRun b } := by
  obtain ⟨hb, h⟩ := whenBetweenRuns_next h
  obtain ⟨hl, h⟩ := whenRunning_next h
  cases h
  exact ⟨hl, hb, rfl⟩

theorem hostCell_some {addr : Int} {cell : Word} (h : hostCell addr = some cell) :
    0 ≤ addr ∧ addr < 65536 ∧ (cell.toNat : Int) = addr := by
  unfold hostCell at h
  split at h
  · rename_i hr
    cases h
    have h2 : addr < 65536 := hr.2
    refine ⟨hr.1, h2, ?_⟩
    rw [BitVec.toNat_ofNat]
    have := hr.1
    omega
  · cases h

theorem stepMany_zero (s : State) : stepMany 0 s = .next s := rfl

theorem stepMany_succ (k : Nat) (s t : State) (h : step s = .next t) : stepMany (k + 1) s = stepMany k t := by
  simp only [stepMany, h]

end Sys2Proof.Machine
end

