-- ==== Sys2Proof/Tests/Slice0.lean ====
section
/-! SUPPORT. The model's own tests, expected values taken from 95_test_vectors.md, and for every statement with hypotheses a
concrete state that meets them. -/

namespace Sys2Proof.Tests

open Sys2Proof.Machine

/-- The reset state with code at an address, `PC` there, and a run in progress with a budget. -/
def running (pc : Word) (code : List Byte) (cyc : Int) : State :=
  { State.reset with pc := pc, mem := Memory.writeBytes [] pc code, run := .inRun cyc }

/-- The same machine with one more byte in memory. -/
def withByte (s : State) (addr : Word) (v : Byte) : State :=
  { s with mem := s.mem.writeByte addr v }

/-- The next state an outcome holds. -/
def nextOf {α : Type} (o : Host.Outcome α Fault Refusal) : Option α :=
  match o with
  | .next t => some t
  | .fault _ => none
  | .refused _ => none

theorem eq_next_of_nextOf {α : Type} {o : Host.Outcome α Fault Refusal} (h : (nextOf o).isSome = true) :
    ∃ t, o = .next t := by
  cases o with
  | next t => exact ⟨t, rfl⟩
  | fault r => cases h
  | refused r => cases h

theorem eq_next_with {o : Host.Outcome State Fault Refusal} {p : State → Bool}
    (h : (nextOf o).any p = true) : ∃ t, o = .next t ∧ p t = true := by
  cases o with
  | next t => exact ⟨t, rfl, h⟩
  | fault r => cases h
  | refused r => cases h

theorem between_of_idle {s : State} (h : s.run = .idle) : s.BetweenRuns := fun cyc e => by rw [h] at e; cases e

theorem between_of_ended {s : State} {status : RunStatus} {left : Int} (h : s.run = .ended status left) :
    s.BetweenRuns := fun cyc e => by rw [h] at e; cases e

/- Well-formedness: an ill-formed list of bytes for each check. -/

theorem test_fits_refuses_missing_operand : Format.imm.fits [0xA9#8] = false := by decide
theorem test_fits_refuses_extra_byte : Format.zp.fits [0xA5#8, 0x42#8, 0x00#8] = false := by decide
theorem test_fits_refuses_short_jsr : Format.abs.fits [0x20#8, 0x00#8] = false := by decide
theorem test_fits_accepts_jsr : Format.abs.fits [0x20#8, 0x00#8, 0x80#8] = true := by decide
theorem test_wellFormed_every_operand :
    (Instr.ldaImm 0xFF#8).wellFormed = true ∧ (Instr.jsrAbs 0xFF#8 0xFF#8).wellFormed = true := by decide

/- Decoding, 95_test_vectors.md 2.9: words written out bit by bit. -/

theorem test_decode_lda_imm : decode [0b10101001#8, 0b10000100#8] = .ok (.ldaImm 0x84#8) [] := by decide
theorem test_decode_lda_zp : decode [0b10100101#8, 0b01000010#8] = .ok (.ldaZp 0x42#8) [] := by decide
theorem test_decode_lda_zpx : decode [0b10110101#8, 0b01000010#8] = .ok (.ldaZpx 0x42#8) [] := by decide
theorem test_decode_jsr :
    decode [0b00100000#8, 0b00110100#8, 0b00010010#8] = .ok (.jsrAbs 0x34#8 0x12#8) [] := by decide
theorem test_decode_neighbours :
    ([0xA1#8, 0xA4#8, 0xA6#8, 0xA8#8, 0xAA#8, 0xAD#8, 0xB1#8, 0xB4#8, 0xB6#8, 0xB9#8, 0xBD#8, 0x21#8, 0x4C#8, 0x60#8,
      0x00#8, 0xEA#8, 0xFF#8] : List Byte).all (fun op => decode [op] == .unrecognized op) = true := by decide
theorem test_decode_rejects_by_name :
    decode [] = .noBytes ∧ decode [0xA9#8] = .truncated .imm 0 ∧ decode [0x20#8, 0x00#8] = .truncated .abs 1 := by
  decide
theorem test_decodeTableWord :
    decodeTableWord 16 0x84A9 = some (.ldaImm 0x84#8) ∧ decodeTableWord 24 0x123420 = some (.jsrAbs 0x34#8 0x12#8) ∧
      decodeTableWord 8 0x84A5 = some (.ldaZp 0x00#8) ∧ decodeTableWord 16 0x00EA = none := by decide
theorem test_withFetchWord_runs_first_after_reset :
    (nextOf (step (State.reset.withFetchWord 24 0x123420))).any (fun t => t.pc == 0x1234#16) = true := by decide

/- One step of each instruction. -/

/-- S3. -/
theorem test_lda_imm :
    (nextOf (step (running 0xFFFC#16 [0xA9#8, 0x84#8] 2))).any (fun t =>
      t.a == 0x84#8 && !t.flags.z && t.flags.n && t.pc == 0xFFFE#16 && t.run == .inRun 0) = true := by decide

/-- S8: the operand of an instruction at 0xFFFF is at 0x0000. -/
theorem test_lda_imm_at_top :
    (nextOf (step (running 0xFFFF#16 [0xA9#8, 0x80#8] 2))).any (fun t => t.a == 0x80#8 && t.pc == 0x0001#16) = true := by
  decide

/-- S4. -/
theorem test_lda_zp :
    (nextOf (step (withByte (running 0xFFFC#16 [0xA5#8, 0x42#8] 3) 0x0042#16 0x84#8))).any (fun t =>
      t.a == 0x84#8 && t.flags.n && !t.flags.z && t.run == .inRun 0) = true := by decide

/-- 2.2: it loads its own operand byte. -/
theorem test_lda_zp_own_operand :
    (nextOf (step (running 0x0000#16 [0xA5#8, 0x01#8] 3))).any (fun t => t.a == 0x01#8 && t.pc == 0x0002#16) = true := by
  decide

/-- S5, with the extra cycle. -/
theorem test_lda_zpx :
    (nextOf (step { withByte (running 0xFFFC#16 [0xB5#8, 0x42#8] 3) 0x0043#16 0x37#8 with x := 0x01#8 })).any (fun t =>
      t.a == 0x37#8 && t.run == .inRun (-1) && t.x == 0x01#8) = true := by decide

/-- 2.3: the index sum wraps inside the zero page. -/
theorem test_lda_zpx_wrap :
    (nextOf (step { withByte (withByte (running 0xFFFC#16 [0xB5#8, 0xFF#8] 4) 0x0001#16 0x5A#8) 0x0101#16 0xEE#8 with
      x := 0x02#8 })).any (fun t => t.a == 0x5A#8 && !t.flags.c) = true := by decide

/-- S6. -/
theorem test_jsr :
    (nextOf (step (running 0x1000#16 [0x20#8, 0x00#8, 0x80#8] 6))).any (fun t =>
      t.pc == 0x8000#16 && t.mem.readByte 0x0100#16 == 0x02#8 && t.mem.readByte 0x0101#16 == 0x10#8 &&
        t.sp == 0x0100#16 && t.run == .inRun 0) = true := by decide

/-- 2.4: the write of the return word wraps past 0xFFFF. -/
theorem test_jsr_write_wraps :
    (nextOf (step { running 0x2000#16 [0x20#8, 0x34#8, 0x12#8] 6 with sp := 0xFFFF#16 })).any (fun t =>
      t.mem.readByte 0xFFFF#16 == 0x02#8 && t.mem.readByte 0x0000#16 == 0x20#8 && t.pc == 0x1234#16) = true := by decide

/-- 2.6: 0xEA is unrecognized. -/
theorem test_unknown_instruction :
    (nextOf (step (running 0xFFFC#16 [0xEA#8] 5))).any (fun t =>
      t.pc == 0xFFFD#16 && t.run == .ended (.raised (.unknownInstruction 0xEA#8 0xFFFC#16)) 4) = true := by decide

/-- 2.8: the host's read of index 65536. -/
theorem test_host_read_out_of_range :
    (match hostReadMemory 65536 State.reset with
      | .fault r => r == .addressOutOfRange 65536
      | .next _ => false
      | .refused _ => false) = true := by decide

/- Witnesses: a concrete state that meets the hypotheses of each statement. -/

/-- `JSR $1002` at 0x1000 and, at 0x1003, a byte of no instruction. -/
abbrev jsrState : State := running 0x1000#16 [0x20#8, 0x02#8, 0x10#8] 1
abbrev immState : State := running 0xFFFF#16 [0xA9#8, 0x80#8] 1
abbrev zpState : State := withByte (running 0xFFFC#16 [0xA5#8, 0xFF#8] 1) 0x00FF#16 0x80#8
abbrev zpxState : State := { withByte (running 0xFFFC#16 [0xB5#8, 0xFF#8] 1) 0x0001#16 0x5A#8 with x := 0x02#8 }
abbrev badState : State := running 0xFFFF#16 [0x01#8] 1

theorem witness_LengthIsAFunctionOfTheOpcode :
    (∃ i rest, decode (0x20#8 :: [0x34#8, 0x12#8, 0x77#8]) = .ok i rest) ∧
      ∃ i rest, decode (0xB5#8 :: [0x42#8]) = .ok i rest :=
  ⟨⟨.jsrAbs 0x34#8 0x12#8, [0x77#8], by decide⟩, ⟨.ldaZpx 0x42#8, [], by decide⟩⟩

theorem witness_StepRunsTheDecodedInstruction :
    (jsrState.AtBoundary 1 ∧
      decode [jsrState.mem.readByte jsrState.pc, jsrState.mem.readByte (jsrState.pc + 1),
        jsrState.mem.readByte (jsrState.pc + 2)] = .ok (.jsrAbs 0x02#8 0x10#8) []) ∧
    (badState.AtBoundary 1 ∧
      decode [badState.mem.readByte badState.pc, badState.mem.readByte (badState.pc + 1),
        badState.mem.readByte (badState.pc + 2)] = .unrecognized 0x01#8) := by decide

theorem witness_UnknownInstructionEndsTheRun :
    badState.AtBoundary 1 ∧ badState.mem.readByte badState.pc ≠ 0xA9#8 ∧ badState.mem.readByte badState.pc ≠ 0xA5#8 ∧
      badState.mem.readByte badState.pc ≠ 0xB5#8 ∧ badState.mem.readByte badState.pc ≠ 0x20#8 := by decide

theorem witness_RunResumesAfterUnknownInstruction :
    ∃ t, badState.AtBoundary 1 ∧ opcodeFormat (badState.mem.readByte badState.pc) = none ∧ step badState = .next t := by
  obtain ⟨t, h⟩ := eq_next_of_nextOf (o := step badState) (by decide)
  exact ⟨t, by decide, by decide, h⟩

/-- One state for each clause of the second part, and a host access for each of the third. -/
theorem witness_CycleCosts :
    (immState.AtBoundary 1 ∧ immState.mem.readByte immState.pc = 0xA9#8) ∧
    (zpState.AtBoundary 1 ∧ zpState.mem.readByte zpState.pc = 0xA5#8) ∧
    (zpxState.AtBoundary 1 ∧ zpxState.mem.readByte zpxState.pc = 0xB5#8) ∧
    (jsrState.AtBoundary 1 ∧ jsrState.mem.readByte jsrState.pc = 0x20#8) ∧
    (badState.AtBoundary 1 ∧ opcodeFormat (badState.mem.readByte badState.pc) = none) := by decide

theorem witness_CycleCosts_host :
    State.reset.BetweenRuns ∧ (∃ t, hostReset State.reset = .next t) ∧
      (∃ t, hostWriteMemory 65535 0x01#8 State.reset = .next t) ∧
      ∃ v, hostReadMemory 0 State.reset = .next (v, State.reset) :=
  ⟨between_of_idle rfl, ⟨_, rfl⟩, eq_next_of_nextOf (by decide), ⟨_, rfl⟩⟩

theorem witness_StartedInstructionsComplete :
    jsrState.AtBoundary 1 ∧ opcodeFormat (jsrState.mem.readByte jsrState.pc) ≠ none := by decide

theorem witness_NonPositiveBudgetDoesNothing :
    State.reset.life = .running ∧ State.reset.BetweenRuns ∧ (0 : Int) ≤ 0 :=
  ⟨rfl, between_of_idle rfl, le_refl 0⟩

theorem witness_CoreActsOnlyInARun :
    (State.reset.BetweenRuns ∧ State.reset.life = .running) ∧
      (State.powerOn.BetweenRuns ∧ State.powerOn.life = .unreset) :=
  ⟨⟨between_of_idle rfl, rfl⟩, ⟨between_of_idle rfl, rfl⟩⟩

theorem witness_EveryRunEnds : State.reset.life = .running ∧ State.reset.BetweenRuns :=
  ⟨rfl, between_of_idle rfl⟩

/-- Program Q of 95_test_vectors.md 2.5: a run of 2 ends with `cyc` = 0. -/
theorem witness_RunsComposeAtExactBudget :
    ∃ t, (0 : Int) ≤ 3 ∧
      runOperation 2 { running 0xFFFC#16 [0xA9#8, 0x01#8, 0xA5#8, 0x00#8] 0 with run := .idle } = .next t ∧
      t.run = .ended .completed 0 := by
  obtain ⟨t, h, hp⟩ := eq_next_with (o := runOperation 2
    { running 0xFFFC#16 [0xA9#8, 0x01#8, 0xA5#8, 0x00#8] 0 with run := .idle })
    (p := fun t => t.run == .ended .completed 0) (by decide)
  exact ⟨t, by decide, h, by simpa using hp⟩

/-- At the boundary between the clauses, a budget equal to the cost, and one more than it. -/
theorem witness_RunUnrollsByOneInstruction :
    let s : State := { immState with run := .idle }
    ∃ t u, s.life = .running ∧ s.BetweenRuns ∧ s.instrAtPc = some (.ldaImm 0x80#8) ∧
      exec (.ldaImm 0x80#8) { s with pc := s.pc + 1, run := .inRun (2 - 1) } = .next t ∧
      exec (.ldaImm 0x80#8) { s with pc := s.pc + 1, run := .inRun (3 - 1) } = .next u ∧
      ((Instr.ldaImm 0x80#8).cycles : Int) = 2 :=
  ⟨_, _, rfl, between_of_idle rfl, by decide, rfl, rfl, by simp⟩

theorem witness_LdaImmediateResult :
    immState.run = .inRun 1 ∧ immState.AtBoundary 1 ∧ immState.mem.readByte immState.pc = 0xA9#8 ∧
      immState.mem.readByte (immState.pc + 1) = 0x80#8 := by decide

theorem witness_LdaZeroPageResult :
    zpState.AtBoundary 1 ∧ zpState.mem.readByte zpState.pc = 0xA5#8 ∧ zpState.mem.readByte (zpState.pc + 1) = 0xFF#8 ∧
      zpState.mem.readByte (BitVec.ofNat 16 (0xFF#8).toNat) = 0x80#8 := by decide

theorem witness_LdaZeroPageXResult :
    zpxState.AtBoundary 1 ∧ zpxState.mem.readByte zpxState.pc = 0xB5#8 ∧
      zpxState.mem.readByte (zpxState.pc + 1) = 0xFF#8 ∧
      zpxState.mem.readByte (BitVec.ofNat 16 (((0xFF#8).toNat + zpxState.x.toNat) % 256)) = 0x5A#8 := by decide

/-- The boundary values of the outcome table's three ranges, each the accumulator a load leaves. -/
theorem witness_LoadFlagOutcomes :
    ([0x00#8, 0x01#8, 0x7F#8, 0x80#8, 0xFF#8] : List Byte).all (fun v =>
      (Instr.ldaImm v).format != .abs && (nextOf (exec (.ldaImm v) State.reset)).any (fun t => t.a == v)) = true := by
  decide

theorem witness_LoadFrame :
    (Instr.ldaImm 0#8).format ≠ .abs ∧ (Instr.ldaZp 0#8).format ≠ .abs ∧ (Instr.ldaZpx 0#8).format ≠ .abs ∧
      immState.run = .inRun 1 := by decide

/-- A memory that differs at 0x0101 only, where the index sum would be if it did not wrap. -/
theorem witness_LoadsSeeOnlyTheZeroPage :
    let m := zpxState.mem.writeByte 0x0101#16 0xEE#8
    ∃ t, zpxState.AtBoundary 1 ∧ zpxState.instrAtPc = some (.ldaZpx 0xFF#8) ∧ (Instr.ldaZpx 0xFF#8).format ≠ .abs ∧
      m ≠ zpxState.mem ∧
      (∀ addr : Word, addr.toNat < 256 ∨ addr = zpxState.pc ∨ addr = zpxState.pc + 1 →
        m.readByte addr = zpxState.mem.readByte addr) ∧
      step zpxState = .next t := by
  obtain ⟨t, h⟩ := eq_next_of_nextOf (o := step zpxState) (by decide)
  refine ⟨t, by decide, by decide, by decide, by decide, fun addr ha => readByte_writeByte_other _ _ _ _ ?_, h⟩
  rintro rfl
  revert ha
  decide

theorem witness_JsrResult : jsrState.mem.wf = true ∧ jsrState.run = .inRun 1 := by decide

/-- The bytes the statement speaks of: those at `SP`, at `SP + 1` with the wrap, and another one. -/
theorem witness_JsrFromItsBoundary :
    let s : State := { jsrState with sp := 0xFFFF#16 }
    s.AtBoundary 1 ∧ s.mem.wf = true ∧ s.mem.readByte s.pc = 0x20#8 ∧ s.sp + 1 = 0x0000#16 ∧
      (0x0001#16 ≠ s.sp ∧ 0x0001#16 ≠ s.sp + 1) := by decide

/-- Two JSRs of program P2. -/
theorem witness_ReturnWordsDoNotStack :
    let s := withByte (running 0xFFFC#16 [0x20#8, 0x00#8, 0x10#8] 12) 0x1000#16 0x20#8
    ∃ t u, s.mem.wf = true ∧ s.AtBoundary 12 ∧ s.mem.readByte s.pc = 0x20#8 ∧ step s = .next t ∧ t.AtBoundary 6 ∧
      t.mem.readByte t.pc = 0x20#8 ∧ step t = .next u := by
  intro s
  obtain ⟨t, h, hp⟩ := eq_next_with (o := step s)
    (p := fun t => decide (t.AtBoundary 6 ∧ t.mem.readByte t.pc = 0x20#8) && (nextOf (step t)).isSome) (by decide)
  rw [Bool.and_eq_true, decide_eq_true_eq] at hp
  obtain ⟨u, hu⟩ := eq_next_of_nextOf hp.2
  exact ⟨t, u, by decide, by decide, by decide, h, hp.1.1, hp.1.2, hu⟩

/-- The second JSR of program P3. -/
theorem witness_StoredBytesAreFetched :
    let s := running 0x10A7#16 [0x20#8, 0x00#8, 0x01#8] 8
    ∃ t, s.mem.wf = true ∧ s.AtBoundary 8 ∧ s.mem.readByte s.pc = 0x20#8 ∧
      256 * (s.mem.readByte (s.pc + 2)).toNat + (s.mem.readByte (s.pc + 1)).toNat = s.sp.toNat ∧ step s = .next t := by
  intro s
  obtain ⟨t, h⟩ := eq_next_of_nextOf (o := step s) (by decide)
  exact ⟨t, by decide, by decide, by decide, by decide, h⟩

theorem witness_InertFlagsAreInert :
    (FlagName.c ≠ .z ∧ FlagName.c ≠ .n) ∧ State.reset.life = .running ∧ State.reset.BetweenRuns :=
  ⟨by decide, rfl, between_of_idle rfl⟩

/-- A step of each kind: a load, a JSR, an unrecognized opcode, a spent budget, no run. It is a witness for the three
statements about every step. -/
theorem witness_steps_of_every_kind :
    (∃ t, step immState = .next t) ∧ (∃ t, step jsrState = .next t) ∧ (∃ t, step badState = .next t) ∧
      (∃ t, step { immState with run := .inRun 0 } = .next t) ∧ (∃ t, step State.reset = .next t) :=
  ⟨eq_next_of_nextOf (by decide), eq_next_of_nextOf (by decide), eq_next_of_nextOf (by decide),
    eq_next_of_nextOf (by decide), eq_next_of_nextOf (by decide)⟩

theorem witness_StepsKeepWhatProgramsCannotChange : ∃ t, step jsrState = .next t := witness_steps_of_every_kind.2.1

theorem witness_OnlyJsrStores :
    (∃ t, step jsrState = .next t) ∧ (0x0000#16 ≠ jsrState.sp ∧ 0x0000#16 ≠ jsrState.sp + 1) ∧
      (∃ t, step zpState = .next t) ∧ zpState.mem.readByte zpState.pc ≠ 0x20#8 :=
  ⟨witness_steps_of_every_kind.2.1, by decide, eq_next_of_nextOf (by decide), by decide⟩

/-- One state for each of the three disjuncts. -/
theorem witness_OnlyJsrJumps :
    ((∃ t, step immState = .next t) ∧ immState.mem.readByte immState.pc ≠ 0x20#8) ∧
    ((∃ t, step badState = .next t) ∧ badState.mem.readByte badState.pc ≠ 0x20#8) ∧
    ((∃ t, step State.reset = .next t) ∧ State.reset.mem.readByte State.reset.pc ≠ 0x20#8) :=
  ⟨⟨witness_steps_of_every_kind.1, by decide⟩, ⟨witness_steps_of_every_kind.2.2.1, by decide⟩,
    ⟨witness_steps_of_every_kind.2.2.2.2, by decide⟩⟩

theorem witness_StepKeepsInvariant : jsrState.Inv ∧ ∃ t, step jsrState = .next t :=
  ⟨by decide, witness_steps_of_every_kind.2.1⟩

theorem witness_HostOperationsKeepInvariant :
    State.reset.Inv ∧ (∃ t, hostReset State.reset = .next t) ∧
      (∃ t, hostWriteMemory 0 0x01#8 State.reset = .next t) ∧ (∃ r, hostReadMemory 65535 State.reset = .next r) ∧
      (∃ t, hostWriteByteReg .x 0x01#8 State.reset = .next t) ∧ (∃ r, hostReadByteReg .x State.reset = .next r) ∧
      (∃ t, hostWriteWordReg .pc 0x1000#16 State.reset = .next t) ∧ (∃ r, hostReadWordReg .sp State.reset = .next r) ∧
      (∃ t, hostWriteFlag .c true State.reset = .next t) ∧ (∃ r, hostReadFlag .c State.reset = .next r) ∧
      (∃ t, hostAttachMemory State.powerOn State.reset = .next t) ∧ (∃ t, startRun 10 State.reset = .next t) ∧
      ∃ t, runOperation 10 State.reset = .next t :=
  ⟨by decide, ⟨_, rfl⟩, eq_next_of_nextOf (by decide), eq_next_of_nextOf (by decide), ⟨_, rfl⟩, ⟨_, rfl⟩, ⟨_, rfl⟩,
    ⟨_, rfl⟩, ⟨_, rfl⟩, ⟨_, rfl⟩, ⟨_, rfl⟩, ⟨_, rfl⟩, eq_next_of_nextOf (by decide)⟩

/-- Both branches: a budget that lets an instruction start, and one that does not. -/
theorem witness_CycleMachineRefinesStep :
    (jsrState.life = .running ∧ jsrState.run = .inRun 1) ∧
      ({ jsrState with run := .inRun 0 } : State).run = .inRun 0 := by decide

theorem witness_WordsAreLittleEndian : (Memory.writeBytes [] 0xFFFF#16 [0x01#8, 0x02#8]).wf = true := by decide

theorem witness_ReadByteAndTickChangeOnlyCyc : immState.run = .inRun 1 := by decide

theorem witness_CanonicalMemoryIsDeterminedByItsBytes :
    let m := Memory.writeBytes [] 0xFFFF#16 [0x01#8, 0x02#8]
    m.wf = true ∧ m ≠ [] ∧ ∀ addr : Word, m.readByte addr = m.readByte addr :=
  ⟨by decide, by decide, fun _ => rfl⟩

theorem witness_ResetSetsEveryPieceOfState :
    ({ jsrState with run := .ended .completed 0 } : State).BetweenRuns ∧ State.powerOn.BetweenRuns :=
  ⟨between_of_ended rfl, between_of_idle rfl⟩

theorem witness_ResetIsIdempotent : State.powerOn.BetweenRuns ∧ jsrState.run = .inRun 1 :=
  ⟨between_of_idle rfl, by decide⟩

theorem witness_RunAfterResetMeetsZeroByte : (0 : Int) < 1 ∧ (0 : Int) < 10 := by decide

/-- The two ends of the range. -/
theorem witness_HostMemoryWriteIsReadBack :
    State.reset.BetweenRuns ∧ State.reset.mem.wf = true ∧ (0 : Int) ≤ 0 ∧ (65535 : Int) < 65536 ∧ (65535 : Int) ≠ 0 :=
  ⟨between_of_idle rfl, by decide, by decide, by decide, by decide⟩

/-- The two addresses next to the range. -/
theorem witness_HostAccessOutOfRangeIsRefused :
    State.reset.BetweenRuns ∧ (-1 : Int) < 0 ∧ (65536 : Int) ≤ 65536 :=
  ⟨between_of_idle rfl, by decide, by decide⟩

theorem witness_HostRegisterWriteChangesOnlyThatRegister :
    State.reset.life = .running ∧ State.reset.BetweenRuns ∧ ByteReg.x ≠ .a ∧ WordReg.sp ≠ .pc ∧ FlagName.n ≠ .z :=
  ⟨rfl, between_of_idle rfl, by decide, by decide, by decide⟩

theorem witness_HostWaitsForTheRunToEnd : jsrState.run = .inRun 1 := by decide

theorem witness_UnresetRegistersAreUnspecified : State.powerOn.life = .unreset ∧ State.powerOn.BetweenRuns :=
  ⟨rfl, between_of_idle rfl⟩

end Sys2Proof.Tests
end

section
/-! PROOFS. The statements of 10_state.md: what a reset leaves (R40), and the flags that nothing reads or writes (R28 to
R32). -/

namespace Sys2Proof.Machine

/- The host's operations where they take place. -/

theorem whenBetweenRuns_of_betweenRuns {s : State} (h : s.BetweenRuns) {α : Type} (op : Host.Outcome α Fault Refusal) :
    s.whenBetweenRuns op = op := by
  unfold State.whenBetweenRuns
  split
  case h_1 cyc hr => exact absurd hr (h cyc)
  all_goals rfl

theorem whenRunning_of_running {s : State} (h : s.life = .running) (op : Host.Outcome State Fault Refusal) :
    s.whenRunning op = op := by
  simp only [State.whenRunning, h]

/-- A reset between runs answers the one state after reset, whatever the old state was (R190). -/
theorem hostReset_of_betweenRuns {s : State} (h : s.BetweenRuns) : hostReset s = .next State.reset :=
  whenBetweenRuns_of_betweenRuns h _

theorem reset_flags_get (name : FlagName) : State.reset.flags.get name = false := by
  cases name <;> rfl

/-- Settles O37: the state a reset answers is the literal `State.reset`, which mentions nothing of the old state. -/
theorem resetSetsEveryPieceOfState : Obligations.ResetSetsEveryPieceOfState := by
  intro s hs
  exact ⟨State.reset, hostReset_of_betweenRuns hs, rfl, rfl, rfl, rfl, rfl, reset_flags_get, readByte_nil, rfl, rfl,
    fun _ => hostReset_of_betweenRuns⟩

/- Setting a flag, and what commutes with it. -/

/-- The state with one flag set to a bit: what the host's write of a flag leaves (`hostWriteFlag_of_running`). -/
def State.setFlag (s : State) (name : FlagName) (bit : Bool) : State :=
  { s with flags := s.flags.set name bit }

/-- Apply an update to the next state of an outcome, if it has one. -/
def mapNext (f : State → State) (o : Host.Outcome State Fault Refusal) : Host.Outcome State Fault Refusal :=
  match o with
  | .next t => .next (f t)
  | .fault r => .fault r
  | .refused r => .refused r

@[simp] theorem mapNext_next (f : State → State) (t : State) : mapNext f (.next t) = .next (f t) := rfl
@[simp] theorem mapNext_refused (f : State → State) (r : Refusal) : mapNext f (.refused r) = .refused r := rfl

theorem get_set_same (f : Flags) (name : FlagName) (bit : Bool) : (f.set name bit).get name = bit := by
  cases name <;> rfl

theorem hostWriteFlag_of_running {s : State} (hl : s.life = .running) (hb : s.BetweenRuns) (name : FlagName) (bit : Bool) :
    hostWriteFlag name bit s = .next (s.setFlag name bit) := by
  unfold hostWriteFlag
  rw [whenBetweenRuns_of_betweenRuns hb, whenRunning_of_running hl, State.setFlag]

@[simp] theorem setFlag_run (s : State) (name : FlagName) (bit : Bool) : (s.setFlag name bit).run = s.run := rfl

theorem instrAtPc_setFlag (s : State) (name : FlagName) (bit : Bool) :
    (s.setFlag name bit).instrAtPc = s.instrAtPc := rfl

theorem fetchByte_setFlag (s : State) (name : FlagName) (bit : Bool) :
    (s.setFlag name bit).fetchByte.2 = s.fetchByte.2.setFlag name bit := rfl

theorem endRun_setFlag (s : State) (name : FlagName) (bit : Bool) (status : RunStatus) :
    (s.setFlag name bit).endRun status = (s.endRun status).setFlag name bit := by
  unfold State.endRun
  rw [setFlag_run]
  cases s.run <;> rfl

theorem unknownAtPc_setFlag (s : State) (name : FlagName) (bit : Bool) :
    (s.setFlag name bit).unknownAtPc = s.unknownAtPc.setFlag name bit :=
  endRun_setFlag s.fetchByte.2 name bit _

/-- The loads' flag update writes `Z` and `N` only, so setting another flag before it or after it is the same (R130). -/
theorem loadStatus_set (f : Flags) {name : FlagName} (hz : name ≠ .z) (hn : name ≠ .n) (bit : Bool) (acc : Byte) :
    (f.set name bit).loadStatus acc = (f.loadStatus acc).set name bit := by
  cases name with
  | z => exact absurd rfl hz
  | n => exact absurd rfl hn
  | c | i | d | b | v => rfl

/-- No handler reads or writes a flag but `Z` and `N` (R34). -/
theorem exec_setFlag (i : Instr) (s : State) {name : FlagName} (hz : name ≠ .z) (hn : name ≠ .n) (bit : Bool) :
    exec i (s.setFlag name bit) = mapNext (fun t => t.setFlag name bit) (exec i s) := by
  cases i with
  | ldaImm v => simp only [exec_ldaImm, execLdaImm_eq, mapNext_next, State.setFlag, loadStatus_set _ hz hn]
  | ldaZp zp8 => simp only [exec_ldaZp, execLdaZp_eq, mapNext_next, State.setFlag, loadStatus_set _ hz hn]
  | ldaZpx base8 => simp only [exec_ldaZpx, execLdaZpx_eq, mapNext_next, State.setFlag, loadStatus_set _ hz hn]
  | jsrAbs lo hi => simp only [exec_jsrAbs, execJsrAbs_eq, mapNext_next, State.setFlag]

theorem runInstruction_setFlag (s : State) {name : FlagName} (hz : name ≠ .z) (hn : name ≠ .n) (bit : Bool) :
    runInstruction (s.setFlag name bit) = mapNext (fun t => t.setFlag name bit) (runInstruction s) := by
  unfold runInstruction
  rw [instrAtPc_setFlag, fetchByte_setFlag]
  cases s.instrAtPc with
  | some i => exact exec_setFlag i s.fetchByte.2 hz hn bit
  | none => exact congrArg Host.Outcome.next (unknownAtPc_setFlag s name bit)

/-- A step commutes with setting a flag other than `Z` and `N` (R34). -/
theorem step_setFlag (s : State) {name : FlagName} (hz : name ≠ .z) (hn : name ≠ .n) (bit : Bool) :
    step (s.setFlag name bit) = mapNext (fun t => t.setFlag name bit) (step s) := by
  cases hl : s.life with
  | unreset => rw [step_unreset s hl, step_unreset (s.setFlag name bit) hl, mapNext_refused]
  | running =>
    cases hr : s.run with
    | idle => rw [step_idle s hl hr, step_idle (s.setFlag name bit) hl hr, mapNext_next]
    | ended status cyc =>
      rw [step_ended s status cyc hl hr, step_ended (s.setFlag name bit) status cyc hl hr, mapNext_next]
    | inRun cyc =>
      rw [step_inRun s cyc hl hr, step_inRun (s.setFlag name bit) cyc hl hr]
      split
      · exact runInstruction_setFlag s hz hn bit
      · rw [endRun_setFlag, mapNext_next]

/-- Settles O25: a step commutes with setting any flag but `Z` and `N`, by the step's cases and the handlers'. -/
theorem inertFlagsAreInert : Obligations.InertFlagsAreInert := by
  refine ⟨fun s name bit hz hn => ?_, reset_flags_get, fun s name bit hl hb => ?_⟩
  · refine (step_setFlag s hz hn bit).trans ?_
    cases step s <;> rfl
  · exact ⟨s.setFlag name bit, hostWriteFlag_of_running hl hb name bit, get_set_same s.flags name bit⟩

end Sys2Proof.Machine
end

section
/-! PROOFS. The statements of 20_memory.md: the byte order of words (R52). -/

namespace Sys2Proof.Machine

theorem lo8_toNat (w : Word) : (lo8 w).toNat = w.toNat % 256 := by
  simp only [lo8, BitVec.extractLsb'_toNat, Nat.shiftRight_zero, Nat.reducePow]

theorem hi8_toNat (w : Word) : (hi8 w).toNat = w.toNat / 256 := by
  have hw : w.toNat / 256 < 256 := Nat.div_lt_of_lt_mul w.isLt
  rw [hi8, BitVec.extractLsb'_toNat, Nat.shiftRight_eq_div_pow]
  exact Nat.mod_eq_of_lt hw

/-- A word reads with its low byte at its own address and its high byte at the next (R52). -/
theorem readWord_toNat (m : Memory) (addr : Word) :
    (m.readWord addr).toNat = 256 * (m.readByte (inc16 addr)).toNat + (m.readByte addr).toNat :=
  cat16_toNat _ _

/-- A written word reads back as itself, across the top of memory too (R52, R53). -/
theorem readWord_writeWord_same (m : Memory) (addr w : Word) (h : m.wf = true) :
    (m.writeWord addr w).readWord addr = w := by
  rw [Memory.readWord, readByte_writeWord_high m addr w h, readByte_writeWord_low m addr w h, cat16_hi8_lo8]

theorem fetchWord_value (s : State) : s.fetchWord.1 = s.mem.readWord s.pc := rfl

/-- Settles O33: a word is its two bytes concatenated, and a write puts the two halves in the two cells a read looks at. -/
theorem wordsAreLittleEndian : Obligations.WordsAreLittleEndian := by
  refine ⟨readWord_toNat, fun m addr w h => ⟨?low, ?high, readWord_writeWord_same m addr w h⟩,
    fun s addr w => ⟨?fetch, writeWord_mem s addr w⟩⟩
  case low => rw [readByte_writeWord_low m addr w h, lo8_toNat]
  case high => exact (congrArg BitVec.toNat (readByte_writeWord_high m addr w h)).trans (hi8_toNat w)
  case fetch => rw [fetchWord_value]; exact readWord_toNat s.mem s.pc

end Sys2Proof.Machine
end

section
/-! PROOFS. The statements of 30_encoding.md: what the whole opcode byte selects (R83, R84). -/

namespace Sys2Proof

/-- The decoder, read as a chain over the whole opcode byte: each value of R83 hands the bytes after it to its own format,
and every other byte is unrecognized. -/
theorem decode_cons (op : Byte) (rest : List Byte) :
    decode (op :: rest) =
      if op = 0xA9#8 then decodeOperands .imm rest else if op = 0xA5#8 then decodeOperands .zp rest
      else if op = 0xB5#8 then decodeOperands .zpx rest else if op = 0x20#8 then decodeOperands .abs rest
      else .unrecognized op := by
  have hfmt := opcodeFormat_eq op
  split_ifs at hfmt ⊢
  case neg => exact decode_unrecognized op rest hfmt
  all_goals exact decode_recognized op rest _ hfmt

/-- Settles O2: the chain over the opcode byte, at two operand bytes, where every format finds the bytes it takes. -/
theorem decodingComparesTheWholeOpcodeByte : Obligations.DecodingComparesTheWholeOpcodeByte := by
  intro op b1 b2
  exact decode_cons op [b1, b2]

end Sys2Proof
end

section
/-! PROOFS. The statements of 40_fetch_execute.md: what the bus primitives and the internal cycle spend (R100, R103, R105). -/

namespace Sys2Proof.Machine

/-- Spending in a run subtracts from `cyc` and touches nothing else (R100). -/
theorem spend_of_inRun {s : State} {cyc : Int} (h : s.run = .inRun cyc) (cost : Int) :
    s.spend cost = { s with run := .inRun (cyc - cost) } := by
  rw [State.spend, h, charge_inRun]

/-- Settles O35: apart from the byte ReadByte answers, both only spend their cost, which is one cycle for each. -/
theorem readByteAndTickChangeOnlyCyc : Obligations.ReadByteAndTickChangeOnlyCyc := by
  intro s cyc addr h
  exact ⟨congrArg (s.mem.readByte addr, ·) (spend_of_inRun h readByteCost), spend_of_inRun h tickCost⟩

end Sys2Proof.Machine
end

section
/-! PROOFS. The statements of 41_load.md: what each accumulator load leaves, from its handler's start and from its
instruction's boundary (R131 to R133), and the flag update that ends them all (R130). -/

namespace Sys2Proof.Machine

/- The effective addresses and the flag update, in the words of the statements. -/

theorem zeroPageAddress_eq (zp8 : Byte) : zeroPageAddress zp8 = BitVec.ofNat 16 zp8.toNat :=
  (BitVec.ofNat_toNat 16 zp8).symm

theorem zeroPageXAddress_eq (base8 x : Byte) :
    zeroPageXAddress base8 x = BitVec.ofNat 16 ((base8.toNat + x.toNat) % 256) := by
  rw [← zeroPageXAddress_toNat, BitVec.ofNat_toNat, BitVec.setWidth_eq]

theorem loadStatus_eq (f : Flags) (v : Byte) :
    f.loadStatus v = { f with z := decide (v = 0#8), n := decide (128 ≤ v.toNat) } := by
  rw [Flags.loadStatus, zero8_eq, sign8_eq]

theorem zero8_eq_decide_toNat (v : Byte) : zero8 v = decide (v.toNat = 0) :=
  (zero8_eq v).trans (decide_eq_decide.mpr BitVec.toNat_inj.symm)

/-- The outcome table of R130, over the three ranges of the new accumulator. -/
theorem loadStatus_outcomes (f : Flags) (v : Byte) :
    (v.toNat = 0 → (f.loadStatus v).z = true ∧ (f.loadStatus v).n = false) ∧
    (1 ≤ v.toNat → v.toNat ≤ 0x7F → (f.loadStatus v).z = false ∧ (f.loadStatus v).n = false) ∧
    (0x80 ≤ v.toNat → (f.loadStatus v).z = false ∧ (f.loadStatus v).n = true) := by
  simp only [loadStatus_z, loadStatus_n, zero8_eq_decide_toNat, sign8_eq, decide_eq_true_eq, decide_eq_false_iff_not]
  omega

/- What a load does, once for the three of them. -/

/-- `Loads s i v`: the instruction `i` is a load, and `v` is the byte it puts into the accumulator when its handler
starts in `s`. -/
inductive Loads (s : State) : Instr → Byte → Prop where
  | imm (v : Byte) : Loads s (.ldaImm v) v
  | zp (zp8 : Byte) : Loads s (.ldaZp zp8) (s.mem.readByte (zeroPageAddress zp8))
  | zpx (base8 : Byte) : Loads s (.ldaZpx base8) (s.mem.readByte (zeroPageXAddress base8 s.x))

theorem exists_loads (s : State) {i : Instr} (h : i.format ≠ .abs) : ∃ v, Loads s i v := by
  cases i with
  | ldaImm v => exact ⟨v, .imm v⟩
  | ldaZp zp8 => exact ⟨_, .zp zp8⟩
  | ldaZpx base8 => exact ⟨_, .zpx base8⟩
  | jsrAbs lo hi => exact absurd rfl h

/-- The opcode fetch changes neither memory nor `X`, so it does not change what a load loads. -/
theorem Loads.fetchByte {s : State} {i : Instr} {v : Byte} (h : Loads s i v) : Loads s.fetchByte.2 i v := by
  cases h with
  | imm v => exact .imm v
  | zp zp8 => exact .zp zp8
  | zpx base8 => exact .zpx base8

/-- A load's handler, in or outside a run: the load, `PC` past the operand, and the instruction's cycles less the opcode
fetch's. -/
theorem exec_of_loads {s : State} {i : Instr} {v : Byte} (h : Loads s i v) :
    exec i s = .next { s with
      a := v, flags := s.flags.loadStatus v, pc := inc16 s.pc, run := s.run.charge (i.cycles - 1) } := by
  cases h with
  | imm v => rw [exec_ldaImm, execLdaImm_eq, cycles_ldaImm]; rfl
  | zp zp8 => rw [exec_ldaZp, execLdaZp_eq, cycles_ldaZp]; rfl
  | zpx base8 => rw [exec_ldaZpx, execLdaZpx_eq, cycles_ldaZpx]; rfl

/-- The state after a load of `v`, with `PC` and `cyc` given: the record update the statements write out. -/
def State.afterLoad (s : State) (v : Byte) (pc : Word) (cyc : Int) : State :=
  { s with
    a := v
    flags := { s.flags with z := decide (v = 0#8), n := decide (128 ≤ v.toNat) }
    pc := pc
    run := .inRun cyc }

/-- A load's handler in a run spends all the instruction's cycles but the opcode fetch's. -/
theorem exec_load {s : State} {cyc : Int} {i : Instr} {v : Byte} {k : Nat} (hr : s.run = .inRun cyc) (h : Loads s i v)
    (hk : i.cycles = k + 1) : exec i s = .next (s.afterLoad v (s.pc + 1) (cyc - k)) := by
  have hcost : (i.cycles : Int) - 1 = k := by omega
  rw [exec_of_loads h, hr, hcost, charge_inRun, loadStatus_eq]
  rfl

/-- A step at a boundary runs the instruction at `PC`, from the state after its opcode fetch (R108). -/
theorem step_of_instrAtPc {s : State} {cyc : Int} {i : Instr} (hb : s.AtBoundary cyc) (hi : s.instrAtPc = some i) :
    step s = exec i s.fetchByte.2 := by
  obtain ⟨hl, hr, hc⟩ := hb
  rw [step_inRun s cyc hl hr, if_pos hc, runInstruction, hi]

/-- The instruction at `PC` is `i` when the byte there is `i`'s opcode and the next byte its only operand byte (R83). -/
theorem instrAtPc_of_bytes {s : State} {i : Instr} (hop : s.mem.readByte s.pc = i.opcode)
    (harg : i.operandBytes = [s.mem.readByte (s.pc + 1)]) : s.instrAtPc = some i := by
  have hfmt := (congrArg opcodeFormat hop).trans (opcodeFormat_opcode i)
  cases i with
  | ldaImm v => cases harg; exact instrAtPc_fetchByte s .imm hfmt (by decide)
  | ldaZp zp8 => cases harg; exact instrAtPc_fetchByte s .zp hfmt (by decide)
  | ldaZpx base8 => cases harg; exact instrAtPc_fetchByte s .zpx hfmt (by decide)
  | jsrAbs lo hi => cases harg

/-- A whole load from its boundary: two bytes, and the instruction's cycles. -/
theorem step_load {s : State} {cyc : Int} {i : Instr} {v : Byte} {k : Nat} (hb : s.AtBoundary cyc) (h : Loads s i v)
    (hop : s.mem.readByte s.pc = i.opcode) (harg : i.operandBytes = [s.mem.readByte (s.pc + 1)])
    (hk : i.cycles = k + 1) : step s = .next (s.afterLoad v (s.pc + 2) (cyc - (k + 1))) := by
  have ⟨_, hrun, _⟩ := hb
  have hr : s.fetchByte.2.run = .inRun (cyc - 1) := by rw [fetchByte_run, hrun, charge_inRun, fetchByteCost]
  have hpc : s.fetchByte.2.pc + 1 = s.pc + 2 := BitVec.add_assoc s.pc 1#16 1#16
  have hcyc : cyc - 1 - (k : Int) = cyc - (k + 1) := by omega
  rw [step_of_instrAtPc hb (instrAtPc_of_bytes hop harg), exec_load hr h.fetchByte hk, hpc, hcyc]
  rfl

/-- Settles O18: every load ends in the flag update, whose table and frame are `loadStatus`'s. -/
theorem loadFlagOutcomes : Obligations.LoadFlagOutcomes := by
  refine ⟨fun i s hi => ?_, loadA_run⟩
  obtain ⟨v, hv⟩ := exists_loads s hi
  obtain ⟨hzero, hpositive, hnegative⟩ := loadStatus_outcomes s.flags v
  exact ⟨_, exec_of_loads hv, hzero, hpositive, hnegative, rfl, rfl, rfl, rfl, rfl⟩

/-- Settles O15: the load of the operand itself, in 2 cycles. -/
theorem ldaImmediateResult : Obligations.LdaImmediateResult := by
  constructor
  · intro s cyc v hr
    exact exec_load hr (.imm v) (cycles_ldaImm v)
  · rintro s cyc _ hb hop rfl
    exact step_load hb (.imm _) hop rfl (cycles_ldaImm _)

/-- Settles O16: the load of the byte at the zero-page address, in 3 cycles. -/
theorem ldaZeroPageResult : Obligations.LdaZeroPageResult := by
  constructor
  · rintro s cyc zp8 _ hr rfl
    rw [← zeroPageAddress_eq]
    exact exec_load hr (.zp zp8) (cycles_ldaZp zp8)
  · rintro s cyc _ _ hb hop rfl rfl
    rw [← zeroPageAddress_eq]
    exact step_load hb (.zp _) hop rfl (cycles_ldaZp _)

/-- Settles O17: the load of the byte at the address whose sum wraps in 8 bits, in 4 cycles. -/
theorem ldaZeroPageXResult : Obligations.LdaZeroPageXResult := by
  constructor
  · rintro s cyc base8 _ hr rfl
    rw [← zeroPageXAddress_eq]
    exact exec_load hr (.zpx base8) (cycles_ldaZpx base8)
  · rintro s cyc _ _ hb hop rfl rfl
    rw [← zeroPageXAddress_eq]
    exact step_load hb (.zpx _) hop rfl (cycles_ldaZpx _)

end Sys2Proof.Machine
end

section
/-! PROOFS. The statements of 70_reset_and_hazards.md: what each operation of the core and of the host costs (R200), and
when a reset takes place (R193). -/

namespace Sys2Proof

/-- An instruction's cycles are those of the opcode map's row for its opcode. -/
theorem cycles_of_lookupOpcode {i : Instr} {r : OpcodeRow} (h : lookupOpcode i.opcode = some r) :
    i.cycles = r.cycles := by
  simp only [Instr.cycles, h]

/-- Only the opcode bytes of R83 select a format, so a byte that selects an instruction's format is its opcode. -/
theorem opcode_of_opcodeFormat {op : Byte} {i : Instr} (h : opcodeFormat op = some i.format) : i.opcode = op := by
  rw [opcodeFormat_eq] at h
  -- In each row of the map only the instruction form of that row's format is left.
  split_ifs at h with himm hzp hzpx habs <;> cases i <;> cases h
  · exact himm.symm
  · exact hzp.symm
  · exact hzpx.symm
  · exact habs.symm

namespace Machine

/- The instruction at `PC` and its cycles. -/

theorem opcodeFormat_of_instrAtPc {s : State} {i : Instr} (h : s.instrAtPc = some i) :
    opcodeFormat (s.mem.readByte s.pc) = some i.format := by
  rw [instrAtPc_eq] at h
  split at h <;> cases h <;> assumption

theorem opcode_of_instrAtPc {s : State} {i : Instr} (h : s.instrAtPc = some i) : i.opcode = s.mem.readByte s.pc :=
  opcode_of_opcodeFormat (opcodeFormat_of_instrAtPc h)

/-- A step at a boundary always answers a next state, whatever byte is at `PC`. -/
theorem step_next_of_atBoundary {s : State} {cyc : Int} (hb : s.AtBoundary cyc) : ∃ t, step s = .next t := by
  cases hi : s.instrAtPc with
  | some i =>
    obtain ⟨_, _, _, _, hexec, -, -⟩ := exec_next i s.fetchByte.2
    exact ⟨_, (step_of_instrAtPc hb hi).trans hexec⟩
  | none =>
    obtain ⟨hl, hr, hc⟩ := hb
    exact ⟨s.unknownAtPc, by rw [step_inRun s cyc hl hr, if_pos hc, runInstruction, hi]⟩

/-- A step at a boundary spends the cycles of the opcode map's row for the byte at `PC`: the opcode fetch's one and the
handler's rest. -/
theorem step_run_of_lookupOpcode {s t : State} {cyc : Int} {r : OpcodeRow} (hb : s.AtBoundary cyc)
    (ht : step s = .next t) (hrow : lookupOpcode (s.mem.readByte s.pc) = some r) : t.run = .inRun (cyc - r.cycles) := by
  have ⟨_, hrun, _⟩ := hb
  cases hi : s.instrAtPc with
  | none =>
    rw [instrAtPc_eq_none, opcodeFormat, hrow] at hi
    cases hi
  | some i =>
    have hcycles : i.cycles = r.cycles := cycles_of_lookupOpcode (by rw [opcode_of_instrAtPc hi, hrow])
    obtain ⟨_, _, _, _, hexec, -, -⟩ := exec_next i s.fetchByte.2
    cases ht.symm.trans ((step_of_instrAtPc hb hi).trans hexec)
    have htotal : fetchByteCost + (i.cycles - 1) = r.cycles := by rw [hcycles, fetchByteCost]; omega
    rw [fetchByte_run, charge_charge, htotal, hrun, charge_inRun]

/-- A step at a boundary with an unrecognized opcode spends the opcode fetch's cycle, and the run has then ended. -/
theorem step_run_of_unrecognized {s t : State} {cyc : Int} (hb : s.AtBoundary cyc) (ht : step s = .next t)
    (hop : opcodeFormat (s.mem.readByte s.pc) = none) : ∃ status, t.run = .ended status (cyc - 1) := by
  obtain ⟨hl, hr, hc⟩ := hb
  rw [step_inRun s cyc hl hr, if_pos hc, runInstruction, (instrAtPc_eq_none s).mpr hop, unknownAtPc_eq s cyc hr] at ht
  cases ht
  exact ⟨_, rfl⟩

/- The bus primitives and the internal cycle. -/

/-- In a run each primitive subtracts its own cost, whatever it reads, writes or addresses. -/
theorem primitives_run_of_inRun {s : State} {cyc : Int} (h : s.run = .inRun cyc) (addr w : Word) :
    s.fetchByte.2.run = .inRun (cyc - 1) ∧ s.fetchWord.2.run = .inRun (cyc - 2) ∧
    (s.readByte addr).2.run = .inRun (cyc - 1) ∧ (s.writeWord addr w).run = .inRun (cyc - 2) ∧
    s.tick.run = .inRun (cyc - 1) := by
  have hcharge (cost : Int) : s.run.charge cost = .inRun (cyc - cost) := by rw [h, charge_inRun]
  exact ⟨hcharge fetchByteCost, hcharge fetchWordCost, hcharge readByteCost, hcharge writeWordCost, hcharge tickCost⟩

/- The host's operations where they have taken place. -/

theorem hostReset_next {s t : State} (h : hostReset s = .next t) : s.BetweenRuns ∧ t = State.reset := by
  obtain ⟨hb, h⟩ := whenBetweenRuns_next h
  cases h
  exact ⟨hb, rfl⟩

/-- A host write of a cell changes memory and nothing else. -/
theorem hostWriteMemory_next {s t : State} {addr : Int} {v : Byte} (h : hostWriteMemory addr v s = .next t) :
    ∃ cell, hostCell addr = some cell ∧ t = { s with mem := s.mem.writeByte cell v } := by
  obtain ⟨-, h⟩ := whenBetweenRuns_next h
  split at h
  · cases h
    exact ⟨_, ‹_›, rfl⟩
  · cases h

/-- A host read of a cell changes nothing. -/
theorem hostReadMemory_next {s t : State} {addr : Int} {v : Byte} (h : hostReadMemory addr s = .next (v, t)) :
    ∃ cell, hostCell addr = some cell ∧ v = s.mem.readByte cell ∧ t = s := by
  obtain ⟨-, h⟩ := whenBetweenRuns_next h
  split at h
  · cases h
    exact ⟨_, ‹_›, rfl, rfl⟩
  · cases h

/-- Settles O8: the primitives charge their own costs, a step the opcode map's cycles, and the host's operations none. -/
theorem cycleCosts : Obligations.CycleCosts := by
  refine ⟨fun s cyc addr w h => primitives_run_of_inRun h addr w, fun s cyc hb => ?step,
    fun s t _ => ⟨?reset, ?write, ?read⟩⟩
  case step =>
    obtain ⟨t, ht⟩ := step_next_of_atBoundary hb
    have hcost {op : Byte} {r : OpcodeRow} (hrow : lookupOpcode op = some r) (hop : s.mem.readByte s.pc = op) :
        t.run = .inRun (cyc - r.cycles) := step_run_of_lookupOpcode hb ht (hop ▸ hrow)
    exact ⟨t, ht, hcost lookupOpcode_imm, hcost lookupOpcode_zp, hcost lookupOpcode_zpx, hcost lookupOpcode_abs,
      step_run_of_unrecognized hb ht⟩
  case reset =>
    intro h
    rw [(hostReset_next h).2, State.reset]
  case write =>
    intro addr v h
    obtain ⟨cell, -, rfl⟩ := hostWriteMemory_next h
    rfl
  case read =>
    intro addr v h
    obtain ⟨cell, -, -, rfl⟩ := hostReadMemory_next h
    rfl

/-- Settles O38: between runs a reset answers `State.reset`, which is itself between runs; during a run it is refused. -/
theorem resetIsIdempotent : Obligations.ResetIsIdempotent := by
  constructor
  · intro s hs
    have hreset : State.reset.BetweenRuns := fun _ => nofun
    exact ⟨State.reset, hostReset_of_betweenRuns hs, rfl, rfl, hostReset_of_betweenRuns hreset⟩
  · intro s cyc hr t ht
    exact (hostReset_next ht).1 cyc hr

end Machine
end Sys2Proof
end

section
/-! PROOFS. The statements of 30_encoding.md: decoding and encoding are each other's inverse, and what an opcode byte says
of the length (R80, R83, R87). -/

namespace Sys2Proof

/-- The operand bytes of a format decode to an instruction exactly when it has that format and they begin with its own. -/
theorem decodeOperands_eq_ok_iff (f : Format) (bytes rest : List Byte) (i : Instr) :
    decodeOperands f bytes = .ok i rest ↔ f = i.format ∧ bytes = i.operandBytes ++ rest := by
  constructor
  · intro h
    unfold decodeOperands at h
    split at h <;> cases h <;> exact ⟨rfl, rfl⟩
  · rintro ⟨rfl, rfl⟩
    cases i <;> rfl

/-- The opcode byte of an instruction is the only byte that selects its format (R83). -/
theorem opcodeFormat_eq_some_format_iff (op : Byte) (i : Instr) : opcodeFormat op = some i.format ↔ op = i.opcode :=
  ⟨fun h => (opcode_of_opcodeFormat h).symm, fun h => h ▸ opcodeFormat_opcode i⟩

theorem decode_cons_eq_ok_iff (op : Byte) (after rest : List Byte) (i : Instr) :
    decode (op :: after) = .ok i rest ↔ op = i.opcode ∧ after = i.operandBytes ++ rest := by
  rw [← opcodeFormat_eq_some_format_iff]
  cases hf : opcodeFormat op with
  | none => rw [decode_unrecognized op after hf]; simp
  | some f => rw [decode_recognized op after f hf, decodeOperands_eq_ok_iff, Option.some_inj]

/-- Settles O3: at a first byte, decoding accepts exactly the opcode byte of the instruction followed by its operands. -/
theorem decodeInvertsEncode : Obligations.DecodeInvertsEncode := by
  intro bytes rest i
  cases bytes with
  | nil => simp [decode, encode]
  | cons op after => rw [decode_cons_eq_ok_iff, encode, List.cons_append, List.cons.injEq]

/-- An instruction's bytes after its opcode, one more for JSR than for a load (R81). -/
theorem operandBytes_length (i : Instr) : 1 + i.operandBytes.length = if i.opcode = 0x20#8 then 3 else 2 := by
  cases i <;> rfl

/-- Settles O4: what is left after the opcode byte is the operand bytes and the rest. -/
theorem lengthIsAFunctionOfTheOpcode : Obligations.LengthIsAFunctionOfTheOpcode := by
  intro op after rest i h
  obtain ⟨rfl, rfl⟩ := (decode_cons_eq_ok_iff op after rest i).mp h
  rw [← operandBytes_length, List.length_append]
  omega

/-- Settles O1: the five words, each decoded by computation. -/
theorem specWordsDecode : Obligations.SpecWordsDecode := by
  unfold Obligations.SpecWordsDecode
  decide

end Sys2Proof
end

section
/-! PROOFS. The statements about one turn of the run loop (R107, R108): what a step does at a boundary and between runs, the
UnknownInstruction condition (R161), and the resumption after it (R163). -/

namespace Sys2Proof

theorem cycles_bounds (i : Instr) : 2 ≤ i.cycles ∧ i.cycles ≤ 6 := by
  cases i <;> simp

namespace Machine

/- The fetch. -/

/-- Two increments are one by 2, across the top of memory too (decision D3). -/
theorem inc16_inc16 (w : Word) : inc16 (inc16 w) = w + 2 :=
  BitVec.add_assoc w 1#16 1#16

theorem bytesAtPc_eq (s : State) :
    s.bytesAtPc = [s.mem.readByte s.pc, s.mem.readByte (s.pc + 1), s.mem.readByte (s.pc + 2)] := by
  rw [State.bytesAtPc, inc16_inc16]
  rfl

theorem instrAtPc_of_decode_ok {s : State} {i : Instr} {rest : List Byte} (h : decode s.bytesAtPc = .ok i rest) :
    s.instrAtPc = some i := by
  simp only [State.instrAtPc, h]

theorem instrAtPc_of_decode_unrecognized {s : State} {op : Byte} (h : decode s.bytesAtPc = .unrecognized op) :
    s.instrAtPc = none := by
  simp only [State.instrAtPc, h]

/-- The opcode fetch in a run: `PC` one further, one cycle less (R101). -/
theorem fetchByte_of_inRun {s : State} {cyc : Int} (h : s.run = .inRun cyc) :
    s.fetchByte.2 = { s with pc := inc16 s.pc, run := .inRun (cyc - 1) } :=
  spend_of_inRun (s := s.setPc (inc16 s.pc)) h fetchByteCost

/- The turns of the loop that run no instruction; `step_of_instrAtPc` is the one that does. -/

theorem step_of_unrecognized {s : State} {cyc : Int} (hb : s.AtBoundary cyc) (hi : s.instrAtPc = none) :
    step s = .next s.unknownAtPc := by
  obtain ⟨hl, hr, hc⟩ := hb
  rw [step_inRun s cyc hl hr, if_pos hc, runInstruction, hi]

theorem step_of_spent {s : State} {cyc : Int} (hl : s.life = .running) (hr : s.run = .inRun cyc) (hc : cyc ≤ 0) :
    step s = .next { s with run := .ended .completed cyc } := by
  rw [step_inRun s cyc hl hr, if_neg (by omega), endRun_inRun s .completed cyc hr]

theorem step_of_betweenRuns {s : State} (hl : s.life = .running) (hb : s.BetweenRuns) : step s = .next s := by
  cases hr : s.run with
  | inRun cyc => exact absurd hr (hb cyc)
  | idle => exact step_idle s hl hr
  | ended status cyc => exact step_ended s status cyc hl hr

theorem betweenRuns_of_ended {s : State} {status : RunStatus} {left : Int} (h : s.run = .ended status left) :
    s.BetweenRuns := by
  intro cyc hr
  cases h.symm.trans hr

/- The host's writes between runs, the start of a run included, on a running core and on one never reset. -/

theorem hostWrite_of_running {s : State} (hl : s.life = .running) (hb : s.BetweenRuns) (t : State) :
    s.whenBetweenRuns (s.whenRunning (.next t)) = .next t := by
  rw [whenBetweenRuns_of_betweenRuns hb, whenRunning_of_running hl]

theorem hostWrite_of_unreset {s : State} (hl : s.life = .unreset) (hb : s.BetweenRuns)
    (op : Host.Outcome State Fault Refusal) : s.whenBetweenRuns (s.whenRunning op) = .refused .coreNotReset := by
  rw [whenBetweenRuns_of_betweenRuns hb, State.whenRunning, hl]

theorem startRun_of_running {s : State} (hl : s.life = .running) (hb : s.BetweenRuns) (b : Int) :
    startRun b s = .next { s with run := .inRun b } :=
  hostWrite_of_running hl hb _

/- What a handler's next state is, whichever it is. -/

/-- The state a handler answers, as `exec_next` gives it. -/
theorem eq_of_exec {i : Instr} {s t : State} (h : exec i s = .next t) :
    ∃ acc fl w m, t = { s with a := acc, flags := fl, pc := w, mem := m, run := s.run.charge (i.cycles - 1) } ∧
      (fl = s.flags ∨ fl = s.flags.loadStatus acc) ∧ (m = s.mem ∨ m = s.mem.writeWord s.sp (inc16 s.pc)) := by
  obtain ⟨acc, fl, w, m, hexec, hfl, hm⟩ := exec_next i s
  cases hexec.symm.trans h
  exact ⟨acc, fl, w, m, rfl, hfl, hm⟩

/-- After the opcode fetch and the handler the whole instruction's cycles are spent. -/
theorem run_of_exec_fetchByte {s t : State} {cyc : Int} {i : Instr} (hr : s.run = .inRun cyc)
    (h : exec i s.fetchByte.2 = .next t) : t.run = .inRun (cyc - i.cycles) := by
  obtain ⟨_, _, _, _, rfl, -, -⟩ := eq_of_exec h
  have htotal : fetchByteCost + (i.cycles - 1) = i.cycles := by rw [fetchByteCost]; omega
  rw [fetchByte_run, charge_charge, htotal, hr, charge_inRun]

theorem life_of_exec {s t : State} {i : Instr} (h : exec i s = .next t) : t.life = s.life := by
  obtain ⟨_, _, _, _, rfl, -, -⟩ := eq_of_exec h
  rfl

theorem exists_exec_next (i : Instr) (s : State) : ∃ t, exec i s = .next t := by
  obtain ⟨_, _, _, _, hexec, -, -⟩ := exec_next i s
  exact ⟨_, hexec⟩

/-- No handler reads `Y` or `cyc`, and each only subtracts from `cyc` (R23, R106). -/
theorem exec_withYRun {i : Instr} {s t : State} (h : exec i s = .next t) (v : Byte) (p : RunPhase) :
    exec i { s with y := v, run := p } = .next { t with y := v, run := p.charge (i.cycles - 1) } := by
  cases i with
  | ldaImm b => rw [exec_of_loads (.imm b)] at h ⊢; cases h; rfl
  | ldaZp zp8 => rw [exec_of_loads (.zp zp8)] at h ⊢; cases h; rfl
  | ldaZpx base8 => rw [exec_of_loads (.zpx base8)] at h ⊢; cases h; rfl
  | jsrAbs lo hi => rw [exec_jsrAbs, execJsrAbs_eq] at h ⊢; cases h; rw [cycles_jsrAbs]; rfl

/- The statements. -/

/-- Settles O9: the instruction's cycles are from 2 to 6, and `cyc` was at least 1. -/
theorem startedInstructionsComplete : Obligations.StartedInstructionsComplete := by
  intro s cyc hb hop
  have ⟨_, hr, hc⟩ := hb
  obtain ⟨i, hi⟩ := Option.ne_none_iff_exists'.mp (mt (instrAtPc_eq_none s).mp hop)
  obtain ⟨t, ht⟩ := exists_exec_next i s.fetchByte.2
  have hbounds := cycles_bounds i
  exact ⟨t, cyc - i.cycles, (step_of_instrAtPc hb hi).trans ht, run_of_exec_fetchByte hr ht,
    by omega, by omega, by omega⟩

/-- Settles O5: the decoded instruction's handler starts in the fetched state; an unrecognized opcode raises there. -/
theorem stepRunsTheDecodedInstruction : Obligations.StepRunsTheDecodedInstruction := by
  intro s cyc hb
  have ⟨_, hr, _⟩ := hb
  simp only [← bytesAtPc_eq]
  constructor
  · intro i rest hd
    rw [step_of_instrAtPc hb (instrAtPc_of_decode_ok hd), fetchByte_of_inRun hr]
    rfl
  · intro op hd
    rw [step_of_unrecognized hb (instrAtPc_of_decode_unrecognized hd), unknownAtPc_eq s cyc hr]
    exact ⟨_, _, rfl, rfl, rfl⟩

theorem step_of_opcodeFormat_none {s : State} {cyc : Int} (hb : s.AtBoundary cyc)
    (hop : opcodeFormat (s.mem.readByte s.pc) = none) :
    step s = .next { s with
      pc := s.pc + 1
      run := .ended (.raised (.unknownInstruction (s.mem.readByte s.pc) s.pc)) (cyc - 1) } := by
  have ⟨_, hr, _⟩ := hb
  rw [step_of_unrecognized hb ((instrAtPc_eq_none s).mpr hop), unknownAtPc_eq s cyc hr]
  rfl

/-- Settles O6: a byte that is none of the four selects no format. -/
theorem unknownInstructionEndsTheRun : Obligations.UnknownInstructionEndsTheRun := by
  intro s cyc hb himm hzp hzpx habs
  refine step_of_opcodeFormat_none hb ?_
  rw [opcodeFormat_eq, if_neg himm, if_neg hzp, if_neg hzpx, if_neg habs]

/-- Settles O7: the step has ended the run on a running core, so a start takes place there and sets only the budget. -/
theorem runResumesAfterUnknownInstruction : Obligations.RunResumesAfterUnknownInstruction := by
  intro s t cyc b hb hop ht
  have ⟨hl, _, _⟩ := hb
  cases ht.symm.trans (step_of_opcodeFormat_none hb hop)
  exact ⟨hl, startRun_of_running (by exact hl) (betweenRuns_of_ended rfl) b⟩

/-- Settles O11: no run is in progress, so a running core holds its state; a core never reset refuses. -/
theorem coreActsOnlyInARun : Obligations.CoreActsOnlyInARun := by
  intro s hb
  exact ⟨fun hl => step_of_betweenRuns hl hb, fun hl => ⟨step_unreset s hl, fun b => hostWrite_of_unreset hl hb _⟩⟩

/-- Settles O34: the second FetchByte reads the next address, and the two costs add up to FetchWord's. -/
theorem fetchWordIsTwoFetches : Obligations.FetchWordIsTwoFetches := by
  refine fun s => ⟨readWord_toNat s.mem s.pc, ?_⟩
  have hcost : s.run.charge fetchWordCost = (s.run.charge fetchByteCost).charge fetchByteCost :=
    (charge_charge s.run fetchByteCost fetchByteCost).symm
  rw [State.fetchWord, State.spend, setPc_run, hcost]
  rfl

end Machine
end Sys2Proof
end

section
/-! PROOFS. The statements about whole runs (R107, R110 to R113, R117): every run ends, within bounds; runs compose; a run
unrolls by one instruction. All of them go through one relation, `EndsIn`, that has no fuel. -/

namespace Sys2Proof.Machine

/-- `EndsIn s t`: the run in progress in `s` ends in `t`. The three ways a turn of the loop can go: the budget is spent; the
opcode is unrecognized; an instruction runs and the run goes on from where it leaves the core. -/
inductive EndsIn : State → State → Prop where
  | spent {s : State} {cyc : Int} (hl : s.life = .running) (hr : s.run = .inRun cyc) (hc : cyc ≤ 0) :
      EndsIn s { s with run := .ended .completed cyc }
  | unknown {s : State} {cyc : Int} (hb : s.AtBoundary cyc) (hi : s.instrAtPc = none) : EndsIn s s.unknownAtPc
  | instr {s u t : State} {cyc : Int} {i : Instr} (hb : s.AtBoundary cyc) (hi : s.instrAtPc = some i)
      (hu : exec i s.fetchByte.2 = .next u) (rest : EndsIn u t) : EndsIn s t

/- The relation and the model's run operation. -/

/-- Every run in progress ends: each instruction takes cycles from a budget that is above 0 when it starts. -/
theorem exists_endsIn {s : State} {cyc : Int} (hl : s.life = .running) (hr : s.run = .inRun cyc) : ∃ t, EndsIn s t := by
  by_cases hc : 0 < cyc
  · cases hi : s.instrAtPc with
    | none => exact ⟨_, .unknown ⟨hl, hr, hc⟩ hi⟩
    | some i =>
      obtain ⟨u, hu⟩ := exists_exec_next i s.fetchByte.2
      have hcycles := (cycles_bounds i).1
      obtain ⟨t, ht⟩ := exists_endsIn (cyc := cyc - i.cycles) ((life_of_exec hu).trans hl) (run_of_exec_fetchByte hr hu)
      exact ⟨t, .instr ⟨hl, hr, hc⟩ hi hu ht⟩
  · exact ⟨_, .spent hl hr (by omega)⟩
termination_by cyc.toNat
decreasing_by omega

/-- A core between runs holds its state however often it is stepped (R176). -/
theorem stepMany_of_betweenRuns {s : State} (hl : s.life = .running) (hb : s.BetweenRuns) (k : Nat) :
    stepMany k s = .next s := by
  induction k with
  | zero => exact stepMany_zero s
  | succ k ih => rw [stepMany_succ k s s (step_of_betweenRuns hl hb), ih]

/-- What the run's last step leaves, any further steps hold. -/
theorem stepMany_succ_of_ended {s t : State} {status : RunStatus} {left : Int} (hs : step s = .next t)
    (hl : t.life = .running) (ht : t.run = .ended status left) (k : Nat) : stepMany (k + 1) s = .next t := by
  rw [stepMany_succ k s t hs, stepMany_of_betweenRuns hl (betweenRuns_of_ended ht) k]

/-- More steps than the budget has cycles reach the end of the run. -/
theorem stepMany_of_endsIn {s t : State} (h : EndsIn s t) {cyc : Int} (hr : s.run = .inRun cyc) {k : Nat}
    (hk : cyc.toNat < k) : stepMany k s = .next t := by
  induction h generalizing cyc k with
  | @spent s _ hl hr' hc =>
    obtain ⟨k, rfl⟩ := Nat.exists_eq_add_of_lt hk
    exact stepMany_succ_of_ended (step_of_spent hl hr' hc) hl rfl _
  | @unknown s _ hb hi =>
    obtain ⟨k, rfl⟩ := Nat.exists_eq_add_of_lt hk
    have ⟨hl, hr', _⟩ := hb
    have hs := step_of_unrecognized hb hi
    rw [unknownAtPc_eq s _ hr'] at hs ⊢
    exact stepMany_succ_of_ended hs hl rfl _
  | @instr s u t _ i hb hi hu _ ih =>
    obtain ⟨k, rfl⟩ := Nat.exists_eq_add_of_lt hk
    have ⟨_, hr', hc⟩ := hb
    cases hr.symm.trans hr'
    have hcycles := (cycles_bounds i).1
    rw [stepMany_succ _ s u ((step_of_instrAtPc hb hi).trans hu)]
    exact ih (run_of_exec_fetchByte hr hu) (by omega)

theorem runOperation_of_endsIn {s t : State} {b : Int} (hl : s.life = .running) (hb : s.BetweenRuns)
    (h : EndsIn { s with run := .inRun b } t) : runOperation b s = .next t := by
  rw [runOperation, startRun_of_running hl hb]
  exact stepMany_of_endsIn h rfl (Nat.lt_succ_self _)

/-- A run operation that answers has taken place from a running core between runs, and its answer is where the run ends. -/
theorem endsIn_of_runOperation {s t : State} {b : Int} (h : runOperation b s = .next t) :
    s.life = .running ∧ s.BetweenRuns ∧ EndsIn { s with run := .inRun b } t := by
  cases hs : startRun b s with
  | fault r => rw [runOperation, hs] at h; cases h
  | refused r => rw [runOperation, hs] at h; cases h
  | next started =>
    obtain ⟨hl, hb, -⟩ := startRun_next hs
    obtain ⟨u, hu⟩ := exists_endsIn (s := { s with run := .inRun b }) hl rfl
    cases h.symm.trans (runOperation_of_endsIn hl hb hu)
    exact ⟨hl, hb, hu⟩

/-- What every step keeps, a whole run keeps. -/
theorem EndsIn.keeps {P : State → Prop} (hP : ∀ s t, P s → step s = .next t → P t) {s t : State} (h : EndsIn s t)
    (hs : P s) : P t := by
  induction h with
  | spent hl hr hc => exact hP _ _ hs (step_of_spent hl hr hc)
  | unknown hb hi => exact hP _ _ hs (step_of_unrecognized hb hi)
  | instr hb hi hu _ ih => exact ih (hP _ _ hs ((step_of_instrAtPc hb hi).trans hu))

/- How a run ends. -/

/-- What a run of budget `b` may report: Completed with the overshoot of one instruction at most, or with the budget itself
where it let no instruction start; or UnknownInstruction, its opcode fetch paid for (R117, R161, R166). -/
def ResultInBounds (b : Int) (status : RunStatus) (left : Int) : Prop :=
  (status = .completed ∧ ((0 < b ∧ -5 ≤ left ∧ left ≤ 0) ∨ (b ≤ 0 ∧ left = b))) ∨
    (∃ op addr, status = .raised (.unknownInstruction op addr) ∧ opcodeFormat op = none ∧ 0 ≤ left ∧ left < b)

/-- Bounds for what an instruction leaves of the budget are bounds for the budget. -/
theorem resultInBounds_of_cycles {b left : Int} {status : RunStatus} {i : Instr} (hb : 0 < b)
    (h : ResultInBounds (b - i.cycles) status left) : ResultInBounds b status left := by
  have ⟨_, _⟩ := cycles_bounds i
  rcases h with ⟨hs, h⟩ | ⟨op, addr, hs, hop, h0, h⟩
  · exact .inl ⟨hs, .inl ⟨hb, by omega, by omega⟩⟩
  · exact .inr ⟨op, addr, hs, hop, h0, by omega⟩

theorem EndsIn.result {s t : State} (h : EndsIn s t) {b : Int} (hr : s.run = .inRun b) :
    t.life = .running ∧ ∃ status left, t.run = .ended status left ∧ ResultInBounds b status left := by
  induction h generalizing b with
  | spent hl hr' hc =>
    cases hr.symm.trans hr'
    exact ⟨hl, _, _, rfl, .inl ⟨rfl, .inr ⟨hc, rfl⟩⟩⟩
  | @unknown s _ hb hi =>
    obtain ⟨hl, hr', hc⟩ := hb
    cases hr'.symm.trans hr
    rw [unknownAtPc_eq s _ hr]
    exact ⟨hl, _, _, rfl, .inr ⟨_, _, rfl, (instrAtPc_eq_none s).mp hi, by omega, by omega⟩⟩
  | instr hb hi hu _ ih =>
    obtain ⟨_, hr', hc⟩ := hb
    cases hr'.symm.trans hr
    obtain ⟨hl, status, left, ht, hbounds⟩ := ih (run_of_exec_fetchByte hr hu)
    exact ⟨hl, status, left, ht, resultInBounds_of_cycles hc hbounds⟩

/-- Settles O12: by induction on the run, whose budget falls by 2 to 6 with each instruction. -/
theorem everyRunEnds : Obligations.EveryRunEnds := by
  intro s b hl hb
  obtain ⟨t, ht⟩ := exists_endsIn (s := { s with run := .inRun b }) hl rfl
  obtain ⟨hlife, status, left, hrun, hbounds⟩ := ht.result rfl
  exact ⟨t, status, left, runOperation_of_endsIn hl hb ht, hlife, hrun, hbounds⟩

/-- Settles O10: the first test of the budget ends the run. -/
theorem nonPositiveBudgetDoesNothing : Obligations.NonPositiveBudgetDoesNothing := by
  intro s b hl hb hle
  exact runOperation_of_endsIn hl hb (.spent hl rfl hle)

/- Runs with another budget. -/

/-- In another phase of the run a handler leaves the same but for that phase (R106). -/
theorem exec_withRun {i : Instr} {s t : State} (h : exec i s = .next t) (p : RunPhase) :
    exec i { s with run := p } = .next { t with run := p.charge (i.cycles - 1) } := by
  obtain ⟨_, _, _, _, rfl, -, -⟩ := eq_of_exec h
  exact exec_withYRun h s.y p

/-- A run that completes at exactly 0 and a run of `b` from there are one run with `b` cycles more. -/
theorem EndsIn.addBudget {s t u : State} {cyc b : Int} (h : EndsIn s t) (hr : s.run = .inRun cyc) (hb : 0 ≤ b)
    (ht : t.run = .ended .completed 0) (hu : EndsIn { t with run := .inRun b } u) :
    EndsIn { s with run := .inRun (cyc + b) } u := by
  induction h generalizing cyc with
  | spent hl hr' hc =>
    cases hr.symm.trans hr'
    cases ht
    rwa [Int.zero_add]
  | @unknown s _ hbd hi =>
    rw [unknownAtPc_eq s cyc hr] at ht
    cases ht
  | @instr s v t cyc i hbd hi hv _ ih =>
    obtain ⟨hl, hr', hc⟩ := hbd
    cases hr'.symm.trans hr
    have hphase : (RunPhase.inRun (cyc + b - 1)).charge (i.cycles - 1) = .inRun (cyc - i.cycles + b) := by
      rw [charge_inRun, RunPhase.inRun.injEq]; omega
    refine .instr (s := { s with run := .inRun (cyc + b) }) ⟨hl, rfl, by omega⟩ hi ?_
      (ih (run_of_exec_fetchByte hr hv) ht hu)
    rw [← hphase]
    exact exec_withRun hv _

/-- Settles O13: by induction on the first run, with the second run's budget carried along. -/
theorem runsComposeAtExactBudget : Obligations.RunsComposeAtExactBudget := by
  intro s t b₁ b₂ hb₂ h₁ ht
  obtain ⟨hl, hb, hend⟩ := endsIn_of_runOperation h₁
  obtain ⟨htl, -⟩ := hend.result rfl
  obtain ⟨u, hu⟩ := exists_endsIn (s := { t with run := .inRun b₂ }) htl rfl
  rw [runOperation_of_endsIn htl (betweenRuns_of_ended ht) hu]
  exact runOperation_of_endsIn hl hb (hend.addBudget (s := { s with run := .inRun b₁ }) rfl hb₂ ht hu)

theorem withRun_of_run_eq {s : State} {p : RunPhase} (h : s.run = p) : { s with run := p } = s := by
  rw [← h]

/-- Settles O14: the first turn of the loop runs the instruction; what follows is the rest's run, or its completion. -/
theorem runUnrollsByOneInstruction : Obligations.RunUnrollsByOneInstruction := by
  intro s t b i hl hb hpos hi ht
  have htl : t.life = .running := (life_of_exec ht).trans hl
  have hrun : t.run = .inRun (b - i.cycles) :=
    run_of_exec_fetchByte (s := { s with run := .inRun b }) rfl ht
  have hturn {u : State} (hu : EndsIn t u) : runOperation b s = .next u :=
    runOperation_of_endsIn hl hb (.instr (s := { s with run := .inRun b }) ⟨hl, rfl, hpos⟩ hi ht hu)
  split
  · obtain ⟨u, hu⟩ := exists_endsIn htl hrun
    have hidle : ({ t with run := .idle } : State).BetweenRuns := fun _ => nofun
    rw [hturn hu]
    refine (runOperation_of_endsIn (s := { t with run := .idle }) htl hidle ?_).symm
    rwa [← withRun_of_run_eq hrun] at hu
  · exact hturn (.spent htl hrun (by omega))

/- A core with nothing loaded. -/

/-- With no byte in memory a run of a positive budget meets 0x00 where `PC` stands, and ends there (R197). -/
theorem runOperation_of_mem_nil {s : State} {b : Int} (hl : s.life = .running) (hb : s.BetweenRuns) (hm : s.mem = [])
    (hpos : 0 < b) :
    runOperation b s = .next { s with
      pc := inc16 s.pc
      run := .ended (.raised (.unknownInstruction 0x00#8 s.pc)) (b - 1) } := by
  have hbyte : s.mem.readByte s.pc = 0x00#8 := by rw [hm, readByte_nil]
  have hi : ({ s with run := .inRun b } : State).instrAtPc = none := by
    rw [instrAtPc_eq_none, hbyte]
    decide
  rw [runOperation_of_endsIn hl hb (.unknown ⟨hl, rfl, hpos⟩ hi), unknownAtPc_eq _ b rfl, hbyte]

/-- Settles O39: two runs over an empty memory, from the literal 0xFFFC. -/
theorem runAfterResetMeetsZeroByte : Obligations.RunAfterResetMeetsZeroByte := by
  intro b b' hb hb'
  have hreset : State.reset.BetweenRuns := fun _ => nofun
  exact ⟨_, runOperation_of_mem_nil rfl hreset rfl hb, rfl,
    runOperation_of_mem_nil rfl (betweenRuns_of_ended rfl) rfl hb'⟩

end Sys2Proof.Machine
end

section
/-! PROOFS. The statements about what every step keeps and what only one instruction does: the loads' frame and what they
see (R135, R136), JSR (R150, R154), and the step's frame (R22, R34, R61, R151). -/

namespace Sys2Proof.Machine

/- The loads. -/

/-- Settles O19: a load's handler is one record update, of `A`, `Z`, `N`, `PC` and `cyc`. -/
theorem loadFrame : Obligations.LoadFrame := by
  intro i s hi
  obtain ⟨v, hv⟩ := exists_loads s hi
  refine ⟨_, exec_of_loads hv, rfl, rfl, rfl, rfl, rfl, rfl, fun _ => rfl, fun cyc hr => ⟨cyc - (i.cycles - 1), ?_⟩⟩
  rw [hr, charge_inRun]

/-- Every load's data is in the zero page or in the instruction itself (R135). -/
theorem Loads.withMem {s : State} {m : Memory} {i : Instr} {v : Byte} (h : Loads s i v)
    (hm : ∀ addr : Word, addr.toNat < 256 → m.readByte addr = s.mem.readByte addr) : Loads { s with mem := m } i v := by
  cases h with
  | imm v => exact .imm v
  | zp zp8 =>
    rw [← hm _ (by rw [zeroPageAddress_toNat]; exact zp8.isLt)]
    exact .zp zp8
  | zpx base8 =>
    rw [← hm _ (by rw [zeroPageXAddress_toNat]; omega)]
    exact .zpx base8

/-- A load at `PC` is decided by the byte there and the next one (R80). -/
theorem instrAtPc_withMem {s : State} {m : Memory} {i : Instr} (hi : s.instrAtPc = some i) (hf : i.format ≠ .abs)
    (hop : m.readByte s.pc = s.mem.readByte s.pc) (harg : m.readByte (s.pc + 1) = s.mem.readByte (s.pc + 1)) :
    ({ s with mem := m } : State).instrAtPc = some i := by
  have hfmt := opcodeFormat_of_instrAtPc hi
  have harg' : m.readByte (inc16 s.pc) = s.mem.readByte (inc16 s.pc) := harg
  rw [instrAtPc_eq, hfmt] at hi
  rw [instrAtPc_eq, hop, hfmt]
  cases hif : i.format with
  | abs => exact absurd hif hf
  | imm | zp | zpx => rw [hif] at hi; exact harg' ▸ hi

/-- Settles O20: both cores decode the same load, which finds the same byte in both memories. -/
theorem loadsSeeOnlyTheZeroPage : Obligations.LoadsSeeOnlyTheZeroPage := by
  intro s t m cyc i hb hi hf hm ht
  obtain ⟨v, hv⟩ := exists_loads s hf
  have hi' := instrAtPc_withMem hi hf (hm s.pc (by simp)) (hm (s.pc + 1) (by simp))
  have hv' : Loads { s with mem := m } i v := hv.withMem fun addr ha => hm addr (.inl ha)
  rw [step_of_instrAtPc hb hi, exec_of_loads hv.fetchByte] at ht
  cases ht
  refine ⟨rfl, ?_⟩
  rw [step_of_instrAtPc (s := { s with mem := m }) hb hi', exec_of_loads hv'.fetchByte]
  rfl

/- JSR. -/

/-- The state after a JSR: the jump, the return word at `SP`, and the rest of the budget (R150). -/
def State.afterJsr (s : State) (target ret : Word) (cyc : Int) : State :=
  { s with pc := target, mem := s.mem.writeWord s.sp ret, run := .inRun cyc }

theorem exec_jsrAbs_of_inRun {s : State} {cyc : Int} (hr : s.run = .inRun cyc) (lo hi : Byte) :
    exec (.jsrAbs lo hi) s = .next (s.afterJsr (cat16 hi lo) (s.pc + 1) (cyc - 5)) := by
  rw [exec_jsrAbs, execJsrAbs_eq, hr, charge_inRun]
  rfl

/-- A whole JSR from its boundary: the target is the operand word as it stood, the return word the JSR's address + 2. -/
theorem step_jsr {s : State} {cyc : Int} (hb : s.AtBoundary cyc) (hop : s.mem.readByte s.pc = 0x20#8) :
    step s = .next (s.afterJsr (s.mem.readWord (s.pc + 1)) (s.pc + 2) (cyc - 6)) := by
  have ⟨_, hr, _⟩ := hb
  have hi : s.instrAtPc = some (.jsrAbs (s.mem.readByte (inc16 s.pc)) (s.mem.readByte (inc16 (inc16 s.pc)))) := by
    rw [instrAtPc_eq, hop, (by decide : opcodeFormat 0x20#8 = some .abs)]
  have hcyc : cyc - 1 - 5 = cyc - 6 := by omega
  rw [step_of_instrAtPc hb hi, fetchByte_of_inRun hr, exec_jsrAbs_of_inRun rfl, hcyc, ← inc16_inc16 s.pc]
  rfl

/-- What memory holds after a JSR: the return word, low byte first, and else what it held (R52, R154). -/
theorem afterJsr_mem {s : State} (hm : s.mem.wf = true) (target ret : Word) (cyc : Int) :
    (((s.afterJsr target ret cyc).mem.readByte s.sp).toNat = ret.toNat % 256) ∧
    (((s.afterJsr target ret cyc).mem.readByte (s.sp + 1)).toNat = ret.toNat / 256) ∧
    ∀ addr : Word, addr ≠ s.sp → addr ≠ s.sp + 1 →
      (s.afterJsr target ret cyc).mem.readByte addr = s.mem.readByte addr := by
  refine ⟨?_, ?_, fun addr => readByte_writeWord_other s.mem s.sp ret addr⟩
  · rw [← lo8_toNat, ← readByte_writeWord_low s.mem s.sp ret hm]
    rfl
  · rw [← hi8_toNat, ← readByte_writeWord_high s.mem s.sp ret hm]
    rfl

/-- Settles O21: the handler's state is `afterJsr`, with the address of the JSR's last byte as the return word. -/
theorem jsrResult : Obligations.JsrResult := by
  intro s cyc lo hi hm hr
  obtain ⟨hlow, hhigh, hother⟩ := afterJsr_mem hm (cat16 hi lo) (s.pc + 1) (cyc - 5)
  exact ⟨_, exec_jsrAbs_of_inRun hr lo hi, cat16_toNat hi lo, hlow, hhigh, hother, rfl⟩

/-- Settles O22: the step's state is `afterJsr`, its target read before the return word is written. -/
theorem jsrFromItsBoundary : Obligations.JsrFromItsBoundary := by
  intro s cyc hb hm hop
  have htarget : (s.mem.readWord (s.pc + 1)).toNat =
      256 * (s.mem.readByte (s.pc + 2)).toNat + (s.mem.readByte (s.pc + 1)).toNat := by
    rw [readWord_toNat, ← inc16_inc16]
    rfl
  obtain ⟨hlow, hhigh, hother⟩ := afterJsr_mem hm (s.mem.readWord (s.pc + 1)) (s.pc + 2) (cyc - 6)
  exact ⟨_, step_jsr hb hop, htarget, hlow, hhigh, hother, rfl⟩

/-- Settles O23: `SP` does not move, so the second JSR writes its word over the first one's. -/
theorem returnWordsDoNotStack : Obligations.ReturnWordsDoNotStack := by
  intro s t u c₁ c₂ hm hb hop ht hb' hop' hu
  cases (step_jsr hb hop).symm.trans ht
  cases (step_jsr hb' hop').symm.trans hu
  refine ⟨rfl, readWord_writeWord_same _ s.sp _ (wf_writeWord s.mem s.sp _ hm), fun addr hlow hhigh => ?_⟩
  exact (readByte_writeWord_other _ s.sp _ addr hlow hhigh).trans
    (readByte_writeWord_other s.mem s.sp _ addr hlow hhigh)

/-- Settles O24: the three bytes at the target are the return word's two and the untouched one after them. -/
theorem storedBytesAreFetched : Obligations.StoredBytesAreFetched := by
  intro s t cyc hm hb hop htarget ht
  obtain ⟨t', ht', hpc, hlow, hhigh, hother, -⟩ := jsrFromItsBoundary s cyc hb hm hop
  cases ht'.symm.trans ht
  have hsp : t.pc = s.sp := BitVec.eq_of_toNat_eq (hpc.trans htarget)
  have hnext : t.mem.readByte (s.sp + 2) = s.mem.readByte (s.sp + 2) := hother _ (by bv_omega) (by bv_omega)
  have hlow' : t.mem.readByte s.sp = BitVec.ofNat 8 (s.pc + 2).toNat :=
    BitVec.eq_of_toNat_eq (hlow.trans (BitVec.toNat_ofNat _ 8).symm)
  have hhigh' : t.mem.readByte (s.sp + 1) = BitVec.ofNat 8 ((s.pc + 2).toNat / 256) := by
    rw [← hhigh, BitVec.ofNat_toNat, BitVec.setWidth_eq]
  exact ⟨hsp, by rw [bytesAtPc_eq, hsp, hlow', hhigh', hnext]⟩

end Sys2Proof.Machine
end

section
/-! PROOFS. The statements about every step of the machine: what it cannot change (R22 to R39), the one store and the one
jump (R61, R151), and the invariant, which the host's operations keep too. -/

namespace Sys2Proof

/-- JSR's opcode is that of the one instruction in absolute format (R83). -/
theorem opcode_eq_jsr_iff (i : Instr) : i.opcode = 0x20#8 ↔ i.format = .abs := by
  cases i <;> simp [Instr.opcode, Instr.format]

namespace Machine

/- `X`, `Y`, `SP`, the lifecycle state, the model's counter, and the flags but `Z` and `N`. -/

/-- What programs cannot change, the same in two states. -/
def SameFixedParts (s t : State) : Prop :=
  t.x = s.x ∧ t.y = s.y ∧ t.sp = s.sp ∧ t.life = s.life ∧ t.draws = s.draws ∧
    t.flags = { s.flags with z := t.flags.z, n := t.flags.n }

theorem sameFixedParts_of_exec {i : Instr} {s t : State} (h : exec i s = .next t) : SameFixedParts s t := by
  obtain ⟨_, _, _, _, rfl, rfl | rfl, -⟩ := eq_of_exec h <;> exact ⟨rfl, rfl, rfl, rfl, rfl, rfl⟩

theorem sameFixedParts_of_step {s t : State} (h : step s = .next t) : SameFixedParts s t := by
  obtain ⟨-, ⟨cyc, i, -, -, -, hexec⟩ | ⟨cyc, hr, -, -, rfl⟩ | ⟨cyc, hr, -, rfl⟩ | ⟨-, rfl⟩⟩ := step_cases h
  · exact sameFixedParts_of_exec (s := s.fetchByte.2) hexec
  · rw [unknownAtPc_eq s cyc hr]
    exact ⟨rfl, rfl, rfl, rfl, rfl, rfl⟩
  · rw [endRun_inRun s .completed cyc hr]
    exact ⟨rfl, rfl, rfl, rfl, rfl, rfl⟩
  · exact ⟨rfl, rfl, rfl, rfl, rfl, rfl⟩

theorem exec_withY {i : Instr} {s t : State} (h : exec i s = .next t) (v : Byte) :
    exec i { s with y := v } = .next { t with y := v } := by
  obtain ⟨_, _, _, _, rfl, -, -⟩ := eq_of_exec h
  exact exec_withYRun h v s.run

theorem step_withY {s t : State} (h : step s = .next t) (v : Byte) :
    step { s with y := v } = .next { t with y := v } := by
  obtain ⟨hl, ⟨cyc, i, hr, hc, hi, hexec⟩ | ⟨cyc, hr, hc, hi, rfl⟩ | ⟨cyc, hr, hc, rfl⟩ | ⟨hb, rfl⟩⟩ := step_cases h
  · exact (step_of_instrAtPc (s := { s with y := v }) ⟨hl, hr, hc⟩ hi).trans (exec_withY hexec v)
  · rw [step_of_unrecognized (s := { s with y := v }) ⟨hl, hr, hc⟩ hi, unknownAtPc_eq s cyc hr,
      unknownAtPc_eq { s with y := v } cyc hr]
  · rw [step_of_spent (s := { s with y := v }) hl hr hc, endRun_inRun s .completed cyc hr]
  · exact step_of_betweenRuns (s := { t with y := v }) hl hb

/-- Settles O26: by the cases of the step, each of which copies these parts, and none of which reads `Y`. -/
theorem stepsKeepWhatProgramsCannotChange : Obligations.StepsKeepWhatProgramsCannotChange :=
  ⟨fun _ _ => sameFixedParts_of_step, fun _ _ v h => step_withY h v⟩

/- Memory and `PC`. -/

/-- A step stores nothing, or is a JSR's and stores one word at `SP` (R61, R135, R154). -/
theorem step_mem {s t : State} (h : step s = .next t) :
    t.mem = s.mem ∨ s.mem.readByte s.pc = 0x20#8 ∧ ∃ w, t.mem = s.mem.writeWord s.sp w := by
  obtain ⟨-, ⟨cyc, i, -, -, hi, hexec⟩ | ⟨cyc, hr, -, -, rfl⟩ | ⟨cyc, -, -, rfl⟩ | ⟨-, rfl⟩⟩ := step_cases h
  · by_cases hf : i.format = .abs
    · obtain ⟨_, _, _, _, rfl, -, hm⟩ := eq_of_exec hexec
      have hop : s.mem.readByte s.pc = 0x20#8 := by rw [← opcode_of_instrAtPc hi, opcode_eq_jsr_iff, hf]
      exact hm.imp id fun hm => ⟨hop, _, hm⟩
    · obtain ⟨v, hv⟩ := exists_loads s.fetchByte.2 hf
      cases (exec_of_loads hv).symm.trans hexec
      exact .inl rfl
  · rw [unknownAtPc_eq s cyc hr]
    exact .inl rfl
  · exact .inl (endRun_mem s .completed)
  · exact .inl rfl

/-- Settles O27: the word JSR stores lies in the two cells at `SP`. -/
theorem onlyJsrStores : Obligations.OnlyJsrStores := by
  intro s t h
  obtain hm | ⟨hop, w, hm⟩ := step_mem h
  · exact ⟨fun addr _ _ => by rw [hm], fun _ addr => by rw [hm]⟩
  · refine ⟨fun addr hlow hhigh => ?_, fun hne => absurd hop hne⟩
    rw [hm, readByte_writeWord_other s.mem s.sp w addr hlow hhigh]

/-- Settles O28: a load, the exception, and the two turns of the loop that start nothing. -/
theorem onlyJsrJumps : Obligations.OnlyJsrJumps := by
  intro s t h hop
  obtain ⟨-, ⟨cyc, i, hr, -, hi, hexec⟩ | ⟨cyc, hr, -, -, rfl⟩ | ⟨cyc, -, -, rfl⟩ | ⟨-, rfl⟩⟩ := step_cases h
  · have hf : i.format ≠ .abs := by rwa [Ne, ← opcode_eq_jsr_iff, opcode_of_instrAtPc hi]
    obtain ⟨v, hv⟩ := exists_loads s.fetchByte.2 hf
    have hrun := run_of_exec_fetchByte hr hexec
    cases (exec_of_loads hv).symm.trans hexec
    exact .inl ⟨inc16_inc16 s.pc, _, hrun⟩
  · rw [unknownAtPc_eq s cyc hr]
    exact .inr (.inl ⟨rfl, _, _, rfl⟩)
  · exact .inr (.inr ⟨endRun_pc s _, endRun_mem s _, endRun_a s _, endRun_flags s _⟩)
  · exact .inr (.inr ⟨rfl, rfl, rfl, rfl⟩)

/- The invariant. -/

/-- What a step leaves in the run field is what a run can report (R112, R117, R164). -/
theorem sound_run_of_step {s t : State} (hs : s.run.sound = true) (h : step s = .next t) : t.run.sound = true := by
  obtain ⟨-, ⟨cyc, i, hr, -, -, hexec⟩ | ⟨cyc, hr, hc, hi, rfl⟩ | ⟨cyc, hr, hc, rfl⟩ | ⟨-, rfl⟩⟩ := step_cases h
  · rw [run_of_exec_fetchByte hr hexec, RunPhase.sound]
  · have hop := (instrAtPc_eq_none s).mp hi
    have hleft : 1 ≤ cyc := hc
    simp [unknownAtPc_eq s cyc hr, RunPhase.sound, hop, hleft]
  · simp [endRun_inRun s .completed cyc hr, RunPhase.sound, hc]
  · exact hs

/-- Settles O29: memory takes at most one word write, the core is running, and the run's report is sound. -/
theorem stepKeepsInvariant : Obligations.StepKeepsInvariant := by
  rintro s t ⟨hm, -, hrun⟩ h
  obtain ⟨-, -, -, hlife, -⟩ := sameFixedParts_of_step h
  obtain ⟨hl, -⟩ := step_cases h
  refine ⟨?_, fun hu => ?_, sound_run_of_step hrun h⟩
  · obtain hm' | ⟨-, w, hm'⟩ := step_mem h
    · rwa [hm']
    · rw [hm']; exact wf_writeWord s.mem s.sp w hm
  · rw [hlife, hl] at hu
    cases hu

/-- Settles O30: both given states have an empty memory and no run. -/
theorem invariantHoldsInitially : Obligations.InvariantHoldsInitially :=
  ⟨⟨wf_nil, fun _ => rfl, rfl⟩, ⟨wf_nil, fun _ => rfl, rfl⟩⟩

/- The host's operations: each writes one thing that the invariant does not speak of, or the memory, or the budget. -/

theorem inv_setByteReg {s : State} (h : s.Inv) (r : ByteReg) (v : Byte) : (s.setByteReg r v).Inv := by
  cases r <;> exact h

theorem inv_setWordReg {s : State} (h : s.Inv) (r : WordReg) (w : Word) : (s.setWordReg r w).Inv := by
  cases r <;> exact h

/-- A host read of a register moves the model's own counter at most. -/
theorem inv_of_hostView {s t : State} {α : Type} {value v : α} {unspecified : Nat → α} (hs : s.Inv)
    (h : s.whenBetweenRuns (.next (s.hostView value unspecified)) = .next (v, t)) : t.Inv := by
  obtain ⟨-, h⟩ := whenBetweenRuns_next h
  unfold State.hostView at h
  split at h <;> cases h <;> exact hs

theorem inv_of_hostWrite {s t u : State} (hu : u.Inv) (h : s.whenBetweenRuns (s.whenRunning (.next u)) = .next t) :
    t.Inv := by
  obtain ⟨-, h⟩ := whenBetweenRuns_next h
  obtain ⟨-, h⟩ := whenRunning_next h
  cases h
  exact hu

/-- The state in which a run starts: the core is running, whatever it reported before. -/
theorem inv_inRun {s : State} (hs : s.Inv) (hl : s.life = .running) (b : Int) : ({ s with run := .inRun b } : State).Inv := by
  obtain ⟨hm, -, -⟩ := hs
  refine ⟨hm, fun hu => ?_, rfl⟩
  cases hl.symm.trans hu

/-- Settles O31: an operation at a time; a whole run by its steps. -/
theorem hostOperationsKeepInvariant : Obligations.HostOperationsKeepInvariant := by
  intro s t hs
  have ⟨hm, hl, hr⟩ := hs
  refine ⟨?reset, ?writeMemory, ?readMemory, fun r v => inv_of_hostWrite (inv_setByteReg hs r v),
    fun r v => inv_of_hostView hs, fun r w => inv_of_hostWrite (inv_setWordReg hs r w), fun r w => inv_of_hostView hs,
    fun f bit => inv_of_hostWrite hs, fun f bit => inv_of_hostView hs, ?attach, ?start, ?run⟩
  case reset =>
    intro h
    rw [(hostReset_next h).2]
    exact invariantHoldsInitially.1
  case writeMemory =>
    intro addr v h
    obtain ⟨cell, -, rfl⟩ := hostWriteMemory_next h
    exact ⟨wf_writeByte s.mem cell v hm, hl, hr⟩
  case readMemory =>
    intro addr v h
    obtain ⟨cell, -, -, rfl⟩ := hostReadMemory_next h
    exact hs
  case attach =>
    rintro other ⟨hother, -, -⟩ h
    obtain ⟨-, h⟩ := whenBetweenRuns_next h
    obtain ⟨-, h⟩ := whenBetweenRuns_next h
    cases h
    exact ⟨hother, hl, hr⟩
  case start =>
    intro b h
    obtain ⟨hlife, -, rfl⟩ := startRun_next h
    exact inv_inRun hs hlife b
  case run =>
    intro b h
    obtain ⟨hlife, -, hend⟩ := endsIn_of_runOperation h
    exact hend.keeps stepKeepsInvariant (inv_inRun hs hlife b)

end Machine
end Sys2Proof
end

section
/-! PROOFS. The FSM of R114 adds up to a step: the rows of each handler spend and move what its primitives do at once. -/

namespace Sys2Proof.Machine

/-- The FSM leaves `BOUNDARY` where the budget lets an instruction start (R114). -/
theorem microStep_boundary_of_atBoundary {s : State} {cyc : Int} (hb : s.AtBoundary cyc) :
    microStep ⟨s, .boundary⟩ = ⟨s, .t0⟩ := by
  obtain ⟨_, hr, hc⟩ := hb
  simp only [microStep, microBoundary, hr, if_pos hc]

theorem microStep_boundary_of_spent {s : State} {cyc : Int} (hr : s.run = .inRun cyc) (hc : ¬ 0 < cyc) :
    microStep ⟨s, .boundary⟩ = ⟨{ s with run := .ended .completed cyc }, .boundary⟩ := by
  simp only [microStep, microBoundary, hr, if_neg hc, endRun_inRun s .completed cyc hr]

theorem microStep_t0_of_recognized {s : State} {f : Format} (h : opcodeFormat (s.mem.readByte s.pc) = some f) :
    microStep ⟨s, .t0⟩ = ⟨s.fetchByte.2, firstMicroState f⟩ := by
  simp only [microStep, microT0, fetchByte_fst, h]

theorem microStep_t0_of_unrecognized {s : State} (h : opcodeFormat (s.mem.readByte s.pc) = none) :
    microStep ⟨s, .t0⟩ = ⟨s.unknownAtPc, .boundary⟩ := by
  simp only [microStep, microT0, fetchByte_fst, h]

theorem microSteps_succ (k : Nat) (m : MicroMachine) : microSteps (k + 1) m = microSteps k (microStep m) := rfl

/-- The rows after `T0`, one per cycle that is left, take the FSM to the state the instruction's handler answers. -/
def RowsMeetHandler (i : Instr) (s : State) : Prop :=
  ∃ t, exec i s = .next t ∧ microSteps (i.cycles - 1) ⟨s, firstMicroState i.format⟩ = ⟨t, .boundary⟩

/-- WriteWord is its two one-cycle halves, low byte first (R104, R114). -/
theorem writeWord_eq_two_cycles (s : State) (addr w : Word) :
    s.writeWord addr w = (s.writeByteCycle addr (lo8 w)).writeByteCycle (inc16 addr) (hi8 w) := by
  have hcost : s.run.charge writeWordCost = (s.run.charge tickCost).charge tickCost :=
    (charge_charge s.run tickCost tickCost).symm
  rw [State.writeWord, State.spend, hcost]
  rfl

/-- JSR's five rows (R114): FetchWord and WriteWord in two halves each, then the jump with the internal cycle. -/
theorem rowsMeetHandler_jsrAbs (s : State) :
    RowsMeetHandler (.jsrAbs s.fetchByte.1 s.fetchByte.2.fetchByte.1) s := by
  refine ⟨_, rfl, ?_⟩
  rw [cycles_jsrAbs, (fetchWordIsTwoFetches s).2, writeWord_eq_two_cycles]
  rfl

/-- The instruction at `PC`, whose operand bytes are the ones its rows fetch (log 9). -/
theorem rowsMeetHandler_of_instrAtPc {s : State} {i : Instr} (hi : s.instrAtPc = some i) :
    RowsMeetHandler i s.fetchByte.2 := by
  rw [instrAtPc_eq] at hi
  split at hi <;> cases hi
  · exact ⟨_, rfl, by rw [cycles_ldaImm]; rfl⟩
  · exact ⟨_, rfl, by rw [cycles_ldaZp]; rfl⟩
  · exact ⟨_, rfl, by rw [cycles_ldaZpx]; rfl⟩
  · exact rowsMeetHandler_jsrAbs s.fetchByte.2

/-- Settles O32: the row that leaves the boundary, the opcode fetch's row, and the handler's rows. -/
theorem cycleMachineRefinesStep : Obligations.CycleMachineRefinesStep := by
  intro s cyc hl hr
  by_cases hc : 0 < cyc
  · have hb : s.AtBoundary cyc := ⟨hl, hr, hc⟩
    rw [if_pos hc]
    cases hi : s.instrAtPc with
    | none =>
      refine ⟨_, step_of_unrecognized hb hi, ?_⟩
      rw [microSteps_succ, microStep_boundary_of_atBoundary hb]
      exact microStep_t0_of_unrecognized ((instrAtPc_eq_none s).mp hi)
    | some i =>
      obtain ⟨t, hexec, hrows⟩ := rowsMeetHandler_of_instrAtPc hi
      have hcycles : 1 + i.cycles = i.cycles - 1 + 1 + 1 := by have := (cycles_bounds i).1; omega
      refine ⟨t, (step_of_instrAtPc hb hi).trans hexec, ?_⟩
      rw [hcycles, microSteps_succ, microStep_boundary_of_atBoundary hb, microSteps_succ,
        microStep_t0_of_recognized (opcodeFormat_of_instrAtPc hi), hrows]
  · rw [if_neg hc]
    exact ⟨_, step_of_spent hl hr (by omega), microStep_boundary_of_spent hr hc⟩

end Sys2Proof.Machine
end

section
/-! PROOFS. The statements of 20_memory.md about the memory as the host sees it (R64, R164), and that a canonical list is
determined by its bytes (log 6). -/

namespace Sys2Proof.Machine

/- Extensionality of the canonical form. -/

theorem cellAt_cons_self (c : Host.Cell) (rest : List Host.Cell) : cellAt (c :: rest) c.1 = c.2 :=
  if_pos rfl

/-- In canonical lists that read alike no first address is below the other list's. -/
theorem not_lt_of_cellAt_eq {c d : Host.Cell} {rest rest' : List Host.Cell} (h : Rising (c :: rest))
    (h' : Rising (d :: rest')) (heq : ∀ k, cellAt (c :: rest) k = cellAt (d :: rest') k) : ¬ c.1 < d.1 := by
  obtain ⟨-, hv, -⟩ := h
  obtain ⟨ha', -, -⟩ := h'
  intro hlt
  have habove : AllAbove c.1 (d :: rest') := List.forall_mem_cons.mpr ⟨hlt, allAbove_mono ha' hlt.le⟩
  refine hv ?_
  rw [← cellAt_of_allAbove c.1 _ habove, ← heq, cellAt_cons_self]

/-- A canonical list with an entry gives that entry's address a byte that an empty list does not. -/
theorem cellAt_cons_ne_nil {c : Host.Cell} {rest : List Host.Cell} (h : Rising (c :: rest)) :
    cellAt (c :: rest) c.1 ≠ cellAt [] c.1 := by
  obtain ⟨-, hv, -⟩ := h
  rwa [cellAt_cons_self]

/-- Canonical lists that read alike at every number are the same list. -/
theorem rising_ext {cells cells' : List Host.Cell} (h : Rising cells) (h' : Rising cells')
    (heq : ∀ k, cellAt cells k = cellAt cells' k) : cells = cells' := by
  induction cells generalizing cells' with
  | nil =>
    cases cells' with
    | nil => rfl
    | cons d rest' => exact absurd (heq d.1).symm (cellAt_cons_ne_nil h')
  | cons c rest ih =>
    cases cells' with
    | nil => exact absurd (heq c.1) (cellAt_cons_ne_nil h)
    | cons d rest' =>
      have hle := not_lt_of_cellAt_eq h h' heq
      have hge := not_lt_of_cellAt_eq h' h fun k => (heq k).symm
      have hkey : c.1 = d.1 := by omega
      have hbyte : c.2 = d.2 := by simpa [cellAt, hkey] using heq c.1
      obtain ⟨ha, -, hr⟩ := h
      obtain ⟨ha', -, hr'⟩ := h'
      have hrest (k : Nat) : cellAt rest k = cellAt rest' k := by
        by_cases hk : c.1 = k
        · rw [← hk, cellAt_of_allAbove c.1 rest ha, hkey, cellAt_of_allAbove d.1 rest' ha']
        · simpa [cellAt, hk, ← hkey] using heq k
      rw [Prod.ext hkey hbyte, ih hr hr' hrest]

/-- A list with no entry at `k` reads there as unlisted. -/
theorem cellAt_of_forall_ne {cells : List Host.Cell} {k : Nat} (h : ∀ c ∈ cells, c.1 ≠ k) :
    cellAt cells k = Config.unlistedByte := by
  induction cells with
  | nil => rfl
  | cons c rest ih =>
    obtain ⟨hc, hrest⟩ := List.forall_mem_cons.mp h
    rw [cellAt, if_neg hc, ih hrest]

/-- Settles O36: memories that read alike at every address read alike at every number, and canonical lists that do are
equal. -/
theorem canonicalMemoryIsDeterminedByItsBytes : Obligations.CanonicalMemoryIsDeterminedByItsBytes := by
  intro m m' hm hm' heq
  obtain ⟨hr, hbound⟩ := (wf_iff m).mp hm
  obtain ⟨hr', hbound'⟩ := (wf_iff m').mp hm'
  refine rising_ext hr hr' fun k => ?_
  by_cases hk : k < Config.memSize
  · have haddr : (BitVec.ofNat 16 k).toNat = k := Nat.mod_eq_of_lt hk
    rw [← haddr]
    exact heq (BitVec.ofNat 16 k)
  · rw [cellAt_of_forall_ne fun c hc => by have := hbound c hc; omega,
      cellAt_of_forall_ne fun c hc => by have := hbound' c hc; omega]

/- The host's accesses of a cell. -/

theorem hostCell_of_inRange {addr : Int} (h0 : 0 ≤ addr) (h1 : addr < 65536) :
    hostCell addr = some (BitVec.ofNat 16 addr.toNat) :=
  if_pos ⟨h0, h1⟩

theorem hostCell_of_outOfRange {addr : Int} (h : addr < 0 ∨ 65536 ≤ addr) : hostCell addr = none := by
  refine if_neg fun ⟨h0, h1⟩ => ?_
  have h1 : addr < 65536 := h1
  omega

/-- Different integers in range name different cells. -/
theorem hostCell_injective {addr other : Int} {cell : Word} (h : hostCell addr = some cell)
    (h' : hostCell other = some cell) : other = addr := by
  obtain ⟨-, -, hcell⟩ := hostCell_some h
  obtain ⟨-, -, hcell'⟩ := hostCell_some h'
  rw [← hcell, ← hcell']

theorem hostReadMemory_of_cell {s : State} {addr : Int} {cell : Word} (hb : s.BetweenRuns)
    (hc : hostCell addr = some cell) : hostReadMemory addr s = .next (s.mem.readByte cell, s) := by
  rw [hostReadMemory, whenBetweenRuns_of_betweenRuns hb, hc]

theorem hostWriteMemory_of_cell {s : State} {addr : Int} {cell : Word} (hb : s.BetweenRuns)
    (hc : hostCell addr = some cell) (v : Byte) :
    hostWriteMemory addr v s = .next { s with mem := s.mem.writeByte cell v } := by
  rw [hostWriteMemory, whenBetweenRuns_of_betweenRuns hb, hc]

/-- Settles O40: the host's accesses are the memory's, at the cell its integer names. -/
theorem hostMemoryWriteIsReadBack : Obligations.HostMemoryWriteIsReadBack := by
  intro s addr v hb hm h0 h1
  have hc := hostCell_of_inRange h0 h1
  refine ⟨_, hostWriteMemory_of_cell hb hc v, ?_, rfl, fun other ho0 ho1 hne => ?_⟩
  · rw [hostReadMemory_of_cell (by exact hb) hc, readByte_writeByte_same s.mem _ v hm]
  · have hco := hostCell_of_inRange ho0 ho1
    refine ⟨_, hostReadMemory_of_cell hb hco, ?_⟩
    have hcells : BitVec.ofNat 16 other.toNat ≠ BitVec.ofNat 16 addr.toNat := fun he =>
      hne (hostCell_injective hc (he ▸ hco))
    rw [hostReadMemory_of_cell (by exact hb) hco, readByte_writeByte_other s.mem _ _ v hcells]

/-- Settles O41: such an integer names no cell. -/
theorem hostAccessOutOfRangeIsRefused : Obligations.HostAccessOutOfRangeIsRefused := by
  intro s addr v hb h
  rw [hostReadMemory, hostWriteMemory, whenBetweenRuns_of_betweenRuns hb, whenBetweenRuns_of_betweenRuns hb,
    hostCell_of_outOfRange h]
  exact ⟨rfl, rfl⟩

end Sys2Proof.Machine
end

section
/-! PROOFS. The statements of 10_state.md about the host's access to registers and flags (R41, R42), and when no host
operation takes place (R119). -/

namespace Sys2Proof.Machine

/- Registers read after a write, and the frame of a write. -/

theorem byteReg_setByteReg_same (s : State) (r : ByteReg) (v : Byte) : (s.setByteReg r v).byteReg r = v := by
  cases r <;> rfl

theorem byteReg_setByteReg_other (s : State) {r r' : ByteReg} (h : r' ≠ r) (v : Byte) :
    (s.setByteReg r v).byteReg r' = s.byteReg r' := by
  cases r <;> cases r' <;> simp [State.byteReg, State.setByteReg] at h ⊢

theorem setByteReg_frame (s : State) (r : ByteReg) (v : Byte) :
    s.setByteReg r v =
      { s with a := (s.setByteReg r v).a, x := (s.setByteReg r v).x, y := (s.setByteReg r v).y } := by
  cases r <;> rfl

theorem wordReg_setWordReg_same (s : State) (r : WordReg) (w : Word) : (s.setWordReg r w).wordReg r = w := by
  cases r <;> rfl

theorem wordReg_setWordReg_other (s : State) {r r' : WordReg} (h : r' ≠ r) (w : Word) :
    (s.setWordReg r w).wordReg r' = s.wordReg r' := by
  cases r <;> cases r' <;> simp [State.wordReg, State.setWordReg] at h ⊢

theorem setWordReg_frame (s : State) (r : WordReg) (w : Word) :
    s.setWordReg r w = { s with pc := (s.setWordReg r w).pc, sp := (s.setWordReg r w).sp } := by
  cases r <;> rfl

theorem get_set_other (f : Flags) {name name' : FlagName} (h : name' ≠ name) (bit : Bool) :
    (f.set name bit).get name' = f.get name' := by
  cases name <;> cases name' <;> simp [Flags.get, Flags.set] at h ⊢

@[simp] theorem setByteReg_life (s : State) (r : ByteReg) (v : Byte) : (s.setByteReg r v).life = s.life := by
  cases r <;> rfl
@[simp] theorem setByteReg_run (s : State) (r : ByteReg) (v : Byte) : (s.setByteReg r v).run = s.run := by
  cases r <;> rfl
@[simp] theorem setWordReg_life (s : State) (r : WordReg) (w : Word) : (s.setWordReg r w).life = s.life := by
  cases r <;> rfl
@[simp] theorem setWordReg_run (s : State) (r : WordReg) (w : Word) : (s.setWordReg r w).run = s.run := by
  cases r <;> rfl

/- The host's reads of registers and flags, on a running core and on one never reset. -/

/-- A host read of a running core answers the value and changes nothing (R42). -/
theorem hostRead_of_running {s : State} (hl : s.life = .running) (hb : s.BetweenRuns) {α : Type} (value : α)
    (unspecified : Nat → α) : s.whenBetweenRuns (.next (s.hostView value unspecified)) = .next (value, s) := by
  rw [whenBetweenRuns_of_betweenRuns hb, State.hostView, hl]

/-- A host read of a core never reset answers a fresh free value (R41). -/
theorem hostRead_of_unreset {s : State} (hl : s.life = .unreset) (hb : s.BetweenRuns) {α : Type} (value : α)
    (unspecified : Nat → α) :
    s.whenBetweenRuns (.next (s.hostView value unspecified)) =
      .next (unspecified s.draws, { s with draws := s.draws + 1 }) := by
  rw [whenBetweenRuns_of_betweenRuns hb, State.hostView, hl]

/-- No host operation takes place while a run is in progress (R119). -/
theorem whenBetweenRuns_of_inRun {s : State} {cyc : Int} (hr : s.run = .inRun cyc) {α : Type}
    (op : Host.Outcome α Fault Refusal) : s.whenBetweenRuns op = .refused .operationInProgress := by
  rw [State.whenBetweenRuns, hr]

theorem betweenRuns_of_run_eq {s t : State} (h : t.run = s.run) (hb : s.BetweenRuns) : t.BetweenRuns :=
  fun cyc hr => hb cyc (h.symm.trans hr)

/-- What the host writes it reads back in the state the write leaves, which is running and between runs as before. -/
theorem hostRead_of_hostWrite {s t : State} (hl : s.life = .running) (hb : s.BetweenRuns) (hlife : t.life = s.life)
    (hrun : t.run = s.run) {α : Type} {value v : α} (hv : value = v) (unspecified : Nat → α) :
    s.whenBetweenRuns (s.whenRunning (.next t)) = .next t ∧
      t.whenBetweenRuns (.next (t.hostView value unspecified)) = .next (v, t) :=
  ⟨hostWrite_of_running hl hb t,
    hv ▸ hostRead_of_running (hlife.trans hl) (betweenRuns_of_run_eq hrun hb) value unspecified⟩

/-- Settles O42: one register or flag at a time, read back in the state the write leaves. -/
theorem hostRegisterWriteChangesOnlyThatRegister : Obligations.HostRegisterWriteChangesOnlyThatRegister := by
  refine fun s hl hb => ⟨fun r v => ?byte, fun r w => ?word, fun f bit => ?flag⟩
  case byte =>
    obtain ⟨hwrite, hread⟩ := hostRead_of_hostWrite hl hb (setByteReg_life s r v) (setByteReg_run s r v)
      (byteReg_setByteReg_same s r v) Config.unresetByte
    exact ⟨_, hwrite, hread, fun _ h => byteReg_setByteReg_other s h v, setByteReg_frame s r v⟩
  case word =>
    obtain ⟨hwrite, hread⟩ := hostRead_of_hostWrite hl hb (setWordReg_life s r w) (setWordReg_run s r w)
      (wordReg_setWordReg_same s r w) Config.unresetWord
    exact ⟨_, hwrite, hread, fun _ h => wordReg_setWordReg_other s h w, setWordReg_frame s r w⟩
  case flag =>
    obtain ⟨hwrite, hread⟩ := hostRead_of_hostWrite (t := s.setFlag f bit) hl hb rfl rfl
      (get_set_same s.flags f bit) Config.unresetFlag
    exact ⟨_, hwrite, hread, fun _ h => get_set_other s.flags h bit, rfl⟩

/-- Settles O43: every host operation waits for the run to end before it does anything. -/
theorem hostWaitsForTheRunToEnd : Obligations.HostWaitsForTheRunToEnd := by
  intro s other cyc b addr v w bit r q f hr
  have hrefused {α : Type} (op : Host.Outcome α Fault Refusal) : s.whenBetweenRuns op = .refused .operationInProgress :=
    whenBetweenRuns_of_inRun hr op
  exact ⟨hrefused _, hrefused _, hrefused _, hrefused _, hrefused _, hrefused _, hrefused _, hrefused _, hrefused _,
    hrefused _, hrefused _⟩

/-- Settles O44: reads draw the free value of the counter, writes are refused, and the memory as created is empty. -/
theorem unresetRegistersAreUnspecified : Obligations.UnresetRegistersAreUnspecified := by
  refine ⟨fun s hl hb => ?_, rfl, rfl, readByte_nil⟩
  exact ⟨fun r v => ⟨hostWrite_of_unreset hl hb _, hostRead_of_unreset hl hb _ _⟩,
    fun r w => ⟨hostWrite_of_unreset hl hb _, hostRead_of_unreset hl hb _ _⟩,
    fun f bit => ⟨hostWrite_of_unreset hl hb _, hostRead_of_unreset hl hb _ _⟩⟩

end Sys2Proof.Machine
end
